-- ==== Sys2Proof/Word.lean ====
section
/-! DEFINITION. The words of the unit: bytes, register widths, the 48-bit command and response words. -/

namespace Sys2Proof

/-- A byte of the stream memory or of the grid buffer (`20_memory.md` R60). -/
abbrev Byte := BitVec 8

/-- A 16-bit quantity: WIDTH, HEIGHT (`10_state.md` R25) and the fields `a`, `b` of a command. -/
abbrev Half := BitVec 16

/-- A 32-bit register or the `data` field of a response (`10_state.md` R30, `30_encoding.md` R112). -/
abbrev Word := BitVec 32

/-- A 48-bit command or response word (`30_encoding.md` R104, R112). -/
abbrev Word48 := BitVec 48

end Sys2Proof
end

