-- ==== Sys2Proof/Syntax.lean ====
section
/-! DEFINITION. The instructions: the twelve commands of `30_encoding.md` R105 and the two chunk forms of R98, one
constructor per row of spec/opcode_table.json. Operands are the numbers that operand assembly (R107) gives. -/

namespace Sys2Proof

inductive Instr where
  /-- `GNEW width, height` (`40_grid_commands.md` R132). -/
  | gnew (width height : Int)
  /-- `GGET x, y` (R133). -/
  | gget (x y : Int)
  /-- `GSET x, y, v` (R134). -/
  | gset (x y : Int) (v : Bool)
  /-- `GFLIP x, y` (R135). -/
  | gflip (x y : Int)
  /-- `GCLR` (R136). -/
  | gclr
  /-- `GRDB idx` (R137). -/
  | grdb (idx : Nat)
  /-- `GWRB idx, data` (R138). -/
  | gwrb (idx : Nat) (data : Byte)
  /-- `DINIT` (`41_decoder_commands.md` R161). -/
  | dinit
  /-- `DNEXT` (R163). -/
  | dnext
  /-- `DFIN` (R165). -/
  | dfin
  /-- `DREW` (R166). -/
  | drew
  /-- `RDSR n` (R169). -/
  | rdsr (n : Nat)
  /-- `FRAME.RAW`: the chunk at CURSOR, with its `payload_size` and `background_set` (`42_chunk_execution.md` R194). -/
  | frameRaw (payloadSize : Nat) (background : Byte)
  /-- `FRAME.RLE`: likewise (R196). -/
  | frameRle (payloadSize : Nat) (background : Byte)
  deriving DecidableEq, Repr

end Sys2Proof
end

