-- ==== Sys2Proof/WellFormed.lean ====
section
/-! DEFINITION. Which instructions have an encoding: every operand in the range its field gives
(`30_encoding.md` R97, R107). -/

namespace Sys2Proof

/-- A signed 16-bit operand, -32768 to 32767 (`30_encoding.md` R107). -/
def isSigned16 (x : Int) : Bool := decide (-32768 ≤ x) && decide (x ≤ 32767)

/-- An unsigned 16-bit operand or field. -/
def isUnsigned16 (n : Nat) : Bool := decide (n < 65536)

/-- An unsigned 32-bit operand (`30_encoding.md` R107). -/
def isUnsigned32 (n : Nat) : Bool := decide (n < 4294967296)

/-- Every operand fits its field. -/
def Instr.wellFormed : Instr → Bool
  | .gnew width height => isSigned16 width && isSigned16 height
  | .gget x y => isSigned16 x && isSigned16 y
  | .gset x y _ => isSigned16 x && isSigned16 y
  | .gflip x y => isSigned16 x && isSigned16 y
  | .gclr => true
  | .grdb idx => isUnsigned32 idx
  | .gwrb idx _ => isUnsigned32 idx
  | .dinit => true
  | .dnext => true
  | .dfin => true
  | .drew => true
  | .rdsr n => isUnsigned16 n
  | .frameRaw payloadSize _ => isUnsigned16 payloadSize
  | .frameRle payloadSize _ => isUnsigned16 payloadSize

end Sys2Proof
end

