-- ==== Sys2Proof/Decode.lean ====
section
/-! DEFINITION. Decoding of both languages of `30_encoding.md`: command words (Part B) and chunk headers (Part A),
each rejecting by name; then the encoder, from the same tables; then the table words the host asks about. -/

namespace Sys2Proof

/-! ## Types -/

/-- The twelve opcodes (`30_encoding.md` R105). -/
inductive Opcode where
  | gnew | gget | gset | gflip | gclr | grdb | gwrb | dinit | dnext | dfin | drew | rdsr
  deriving DecidableEq, Repr

/-- Why a command word is not an instruction (`30_encoding.md` R118). -/
inductive CommandReject where
  /-- `op` is none of the twelve opcodes (R109). -/
  | badOpcode
  /-- a field the command does not use is nonzero (R108). -/
  | badField
  deriving DecidableEq, Repr

/-- Why chunk-header bytes are not an instruction (`30_encoding.md` R102). -/
inductive ChunkReject where
  /-- fewer than six bytes. -/
  | truncated
  /-- `kind != 1`. -/
  | badKind
  /-- `kind = 1` and `compression >= 2`. -/
  | badCompression
  deriving DecidableEq, Repr

/-- Why an encoding of either language is rejected. -/
inductive Reject where
  | command (why : CommandReject)
  | chunk (why : ChunkReject)
  deriving DecidableEq, Repr

/-- The two chunk forms (`30_encoding.md` R98). -/
inductive ChunkForm where
  | raw | rle
  deriving DecidableEq, Repr

/-- The fields of a chunk header (`30_encoding.md` R97). -/
structure ChunkHeader where
  kind : Nat
  payloadSize : Nat
  compression : Nat
  background : Byte
  deriving DecidableEq, Repr

/-- The fields of the stream header that the decoder reads (`30_encoding.md` R91, `20_memory.md` R66). -/
structure Header where
  magic : List Byte
  version : Nat
  frameCount : Nat
  width : Nat
  height : Nat
  deriving DecidableEq, Repr

/-- An encoded instruction: a command word, or the six header bytes of a chunk. -/
inductive Code where
  | command (w : Word48)
  | chunk (bytes : List Byte)
  deriving DecidableEq, Repr

/-! ## Fields -/

/-- The little-endian number of a list of bytes: the value of `MemRead` (`20_memory.md` R62, R63). -/
def leNat : List Byte → Nat
  | [] => 0
  | b :: bs => b.toNat + 256 * leNat bs

/-- The `n` bytes of a number, least significant first (`20_memory.md` R63). -/
def leBytes : Nat → Nat → List Byte
  | 0, _ => []
  | n + 1, v => BitVec.ofNat 8 v :: leBytes n (v / 256)

/-- Field `op`, bits 47:40 (`30_encoding.md` R104). -/
def fieldOp (w : Word48) : Byte := w.extractLsb' 40 8

/-- Field `c`, bits 39:32. -/
def fieldC (w : Word48) : Byte := w.extractLsb' 32 8

/-- Field `a`, bits 31:16. -/
def fieldA (w : Word48) : Half := w.extractLsb' 16 16

/-- Field `b`, bits 15:0. -/
def fieldB (w : Word48) : Half := w.extractLsb' 0 16

/-- A command word from its four fields (`30_encoding.md` R104). -/
def commandWord (op c : Byte) (a b : Half) : Word48 := op ++ c ++ a ++ b

/-! ## Commands -/

/-- The opcode a byte names (`30_encoding.md` R105); every other byte is illegal (R109). -/
def Opcode.ofByte (op : Byte) : Option Opcode :=
  match op.toNat with
  | 0x01 => some .gnew
  | 0x02 => some .gget
  | 0x03 => some .gset
  | 0x04 => some .gflip
  | 0x05 => some .gclr
  | 0x06 => some .grdb
  | 0x07 => some .gwrb
  | 0x10 => some .dinit
  | 0x11 => some .dnext
  | 0x12 => some .dfin
  | 0x13 => some .drew
  | 0x20 => some .rdsr
  | _ => none

/-- The byte of an opcode (`30_encoding.md` R105). -/
def Opcode.byte : Opcode → Byte
  | .gnew => 0x01
  | .gget => 0x02
  | .gset => 0x03
  | .gflip => 0x04
  | .gclr => 0x05
  | .grdb => 0x06
  | .gwrb => 0x07
  | .dinit => 0x10
  | .dnext => 0x11
  | .dfin => 0x12
  | .drew => 0x13
  | .rdsr => 0x20

/-- The bits of the word that the command does not use and that must be zero (`30_encoding.md` R108): `c` for every
command but GSET and GWRB, `c[7:1]` for GSET, `a` and `b` for the commands without operands, `a` for RDSR. -/
def Opcode.unused : Opcode → Word48
  | .gnew => 0x00FF00000000
  | .gget => 0x00FF00000000
  | .gset => 0x00FE00000000
  | .gflip => 0x00FF00000000
  | .gclr => 0x00FFFFFFFFFF
  | .grdb => 0x00FF00000000
  | .gwrb => 0x000000000000
  | .dinit => 0x00FFFFFFFFFF
  | .dnext => 0x00FFFFFFFFFF
  | .dfin => 0x00FFFFFFFFFF
  | .drew => 0x00FFFFFFFFFF
  | .rdsr => 0x00FFFFFF0000

/-- The signed value of operand field `a` (`30_encoding.md` R107). -/
def signedA (w : Word48) : Int := (fieldA w).toInt

/-- The signed value of operand field `b` (`30_encoding.md` R107). -/
def signedB (w : Word48) : Int := (fieldB w).toInt

/-- The byte index of GRDB and GWRB, `a * 65536 + b` (`30_encoding.md` R107). -/
def byteIndexAB (w : Word48) : Nat := (fieldA w).toNat * 65536 + (fieldB w).toNat

/-- Operand assembly (`30_encoding.md` R107). -/
def Opcode.operands (o : Opcode) (w : Word48) : Instr :=
  match o with
  | .gnew => .gnew (signedA w) (signedB w)
  | .gget => .gget (signedA w) (signedB w)
  | .gset => .gset (signedA w) (signedB w) ((fieldC w).getLsbD 0)
  | .gflip => .gflip (signedA w) (signedB w)
  | .gclr => .gclr
  | .grdb => .grdb (byteIndexAB w)
  | .gwrb => .gwrb (byteIndexAB w) (fieldC w)
  | .dinit => .dinit
  | .dnext => .dnext
  | .dfin => .dfin
  | .drew => .drew
  | .rdsr => .rdsr (fieldB w).toNat

/-- Decoding of a command word: the opcode check, then the unused-field check (`30_encoding.md` R108, R109, R118). -/
def decodeCommand (w : Word48) : Except CommandReject Instr :=
  match Opcode.ofByte (fieldOp w) with
  | none => .error .badOpcode
  | some o => if w &&& o.unused = 0 then .ok (o.operands w) else .error .badField

/-! ## Stream -/

/-- The chunk header in the first six bytes (`30_encoding.md` R97). -/
def parseChunkHeader (bytes : List Byte) : ChunkHeader :=
  { kind := leNat (bytes.take 2)
    payloadSize := leNat ((bytes.drop 2).take 2)
    compression := leNat ((bytes.drop 4).take 1)
    background := bytes.getD 5 0 }

/-- The stream header in the first 24 bytes (`30_encoding.md` R91). -/
def parseHeader (bytes : List Byte) : Header :=
  { magic := bytes.take 12
    version := leNat ((bytes.drop 12).take 4)
    frameCount := leNat ((bytes.drop 16).take 4)
    width := leNat ((bytes.drop 20).take 2)
    height := leNat ((bytes.drop 22).take 2) }

/-- The form a chunk header declares: the kind test, then the compression test (`30_encoding.md` R98, R102;
`41_decoder_commands.md` R163 for their order). -/
def ChunkHeader.form (h : ChunkHeader) : Except ChunkReject ChunkForm :=
  if h.kind ≠ 1 then .error .badKind
  else if h.compression = 0 then .ok .raw
  else if h.compression = 1 then .ok .rle
  else .error .badCompression

/-- Decoding of a chunk from its six header bytes; bytes after them are the payload and are not looked at. -/
def decodeChunk (bytes : List Byte) : Except ChunkReject Instr :=
  if bytes.length < 6 then .error .truncated
  else
    match (parseChunkHeader bytes).form with
    | .error why => .error why
    | .ok .raw => .ok (.frameRaw (parseChunkHeader bytes).payloadSize (parseChunkHeader bytes).background)
    | .ok .rle => .ok (.frameRle (parseChunkHeader bytes).payloadSize (parseChunkHeader bytes).background)

/-! ## Both languages -/

/-- Decoding of an encoded instruction of either language. -/
def decode : Code → Except Reject Instr
  | .command w =>
    match decodeCommand w with
    | .ok i => .ok i
    | .error why => .error (.command why)
  | .chunk bytes =>
    match decodeChunk bytes with
    | .ok i => .ok i
    | .error why => .error (.chunk why)

/-! ## The encoder -/

/-- Field `a` or `b` of a signed operand. -/
def halfOfInt (x : Int) : Half := BitVec.ofInt 16 x

/-- The six header bytes of a chunk of kind 1 (`30_encoding.md` R97, R98). -/
def chunkHeaderOf (payloadSize compression : Nat) (background : Byte) : List Byte :=
  leBytes 2 1 ++ leBytes 2 payloadSize ++ leBytes 1 compression ++ [background]

/-- The encoding of an instruction (`30_encoding.md` R98, R104, R105, R107). -/
def encode : Instr → Code
  | .gnew width height => .command (commandWord 0x01 0 (halfOfInt width) (halfOfInt height))
  | .gget x y => .command (commandWord 0x02 0 (halfOfInt x) (halfOfInt y))
  | .gset x y v => .command (commandWord 0x03 (if v then 1 else 0) (halfOfInt x) (halfOfInt y))
  | .gflip x y => .command (commandWord 0x04 0 (halfOfInt x) (halfOfInt y))
  | .gclr => .command (commandWord 0x05 0 0 0)
  | .grdb idx => .command (commandWord 0x06 0 (BitVec.ofNat 16 (idx / 65536)) (BitVec.ofNat 16 idx))
  | .gwrb idx data => .command (commandWord 0x07 data (BitVec.ofNat 16 (idx / 65536)) (BitVec.ofNat 16 idx))
  | .dinit => .command (commandWord 0x10 0 0 0)
  | .dnext => .command (commandWord 0x11 0 0 0)
  | .dfin => .command (commandWord 0x12 0 0 0)
  | .drew => .command (commandWord 0x13 0 0 0)
  | .rdsr n => .command (commandWord 0x20 0 0 (BitVec.ofNat 16 n))
  | .frameRaw payloadSize background => .chunk (chunkHeaderOf payloadSize 0 background)
  | .frameRle payloadSize background => .chunk (chunkHeaderOf payloadSize 1 background)

/-! ## Words of the opcode table -/

/-- The six bytes of a number, byte 0 in bits 7:0: how the host numbers the bytes of a chunk header. -/
def tableBytes (w : Word48) : List Byte := leBytes 6 w.toNat

/-- The word of a table row: its `nbits` bits, every bit above them zero. -/
def tableWord (nbits w : Nat) : Word48 := BitVec.ofNat 48 (w % 2 ^ nbits)

/-- The instruction this decoder reads from a row of spec/opcode_table.json whose bits are `w`. The table holds rows of
both languages: a word that is a legal command is that command, and a word that is none is read as the six bytes of a
chunk header (DESIGN CHOICE, assumption log 7). -/
def decodeTableWord (nbits w : Nat) : Option Instr :=
  match decodeCommand (tableWord nbits w) with
  | .ok i => some i
  | .error _ =>
    match decodeChunk (tableBytes (tableWord nbits w)) with
    | .ok i => some i
    | .error _ => none

end Sys2Proof
end

