-- ==== Sys2Proof/Config.lean ====
section
/-! DEFINITION. The implementation parameters of `00_scope.md` R6, the format's fixed sizes, and the free value of
`60_exceptions.md` R240. The three OPEN parameters have no value in the spec: at reset they are opaque constants. -/

namespace Sys2Proof

/-- The OPEN parameters of `00_scope.md` R6. They are fixed for a run: no step writes them (assumption log 1). -/
structure Params where
  /-- `SUPPORTED_VERSION`, the one header version DINIT accepts. -/
  supportedVersion : Word
  /-- `MAGIC_TAIL`, bytes 8 to 11 of the magic. -/
  magicTail : Vector Byte 4
  /-- `GRID_CAP_BYTES`, 0 to 134,213,632 = 4096 * 32767. -/
  gridCapBytes : Fin 134213633
  deriving DecidableEq, Repr

/-- OPEN (`00_scope.md` R6, `91_not_in_source.md` N1). -/
opaque Config.supportedVersion : Word

/-- OPEN (`00_scope.md` R6, `91_not_in_source.md` N2). -/
opaque Config.magicTail : Vector Byte 4

/-- OPEN (`00_scope.md` R6, `91_not_in_source.md` N10). -/
opaque Config.gridCapBytes : Fin 134213633

/-- The parameters of the machine that `State.reset` describes. -/
def Config.params : Params :=
  { supportedVersion := Config.supportedVersion
    magicTail := Config.magicTail
    gridCapBytes := Config.gridCapBytes }

/-- FREE VALUE: the bytes of the grid after the n-th DNEXT fault, which `60_exceptions.md` R240 leaves unspecified
(assumption log 5). -/
opaque Config.freeGrid : Nat → List Byte

/-- `MAGIC_HEAD`, ASCII "BITVIDEO" (`00_scope.md` R6, `30_encoding.md` R92). -/
def magicHead : List Byte := [0x42, 0x49, 0x54, 0x56, 0x49, 0x44, 0x45, 0x4F]

/-- `MAGIC = MAGIC_HEAD || MAGIC_TAIL`, stream bytes 0 to 11 (`30_encoding.md` R92). -/
def Params.magic (p : Params) : List Byte := magicHead ++ p.magicTail.toList

/-- `HEADER_BYTES` (`00_scope.md` R6), also the decoder's entry point (`20_memory.md` R69). -/
def headerBytes : Nat := 128

/-- `CHUNK_HEADER_BYTES` (`00_scope.md` R6). -/
def chunkHeaderBytes : Nat := 6

/-- The largest grid dimension (`10_state.md` R25). -/
def maxDim : Nat := 32767

/-- The number of status registers (`10_state.md` R30). -/
def statusRegisters : Nat := 12

end Sys2Proof
end

