-- ==== Sys2Proof/Machine/State.lean ====
section
/-! DEFINITION. The state of the unit (`10_state.md`), its interface with the host (`70_reset_and_hazards.md` R271),
the parameters (`00_scope.md` R6), and the state after hardware reset (`10_state.md` R45). -/

namespace Sys2Proof.Machine

/-- A byte memory as plain data: (address, byte) pairs, addresses strictly rising, no byte equal to 0, which is what an
unlisted address reads as. Used for the stream memory (`20_memory.md` R60 (a)) and the grid buffer (R60 (b)). -/
abbrev Memory := List Host.Cell

/-- `STATE` (`10_state.md` R40). -/
inductive Mode where
  /-- 0, after hardware reset: no grid exists. -/
  | unconf
  /-- 1, a stand-alone grid exists. -/
  | grid
  /-- 2, the decoder exists. -/
  | dec
  /-- 3, a fatal fault was taken. -/
  | faulted
  deriving DecidableEq, Repr

/-- The nine faults of `60_exceptions.md` R231. Taking one is a next state of the unit (R240), not a stop. -/
inductive FaultCode where
  | hdrShort | badMagic | badVersion | dimRange | capacity
  | badChunkKind | badCompression | rawLenMismatch | rleOverrun
  deriving DecidableEq, Repr

/-- The seven refusal reasons of `60_exceptions.md` R246. A refused command is answered and changes nothing (R245). -/
inductive Reason where
  | badOpcode | badField | badState | badIndex | badSreg | zeroDim | badDim
  deriving DecidableEq, Repr

/-- The response's `status` field (`30_encoding.md` R112). -/
inductive Status where
  | ok | none | refused | fault
  deriving DecidableEq, Repr

/-- What the host does at the unit's ports: it sends a command word (`00_scope.md` R10), or asserts RST
(`70_reset_and_hazards.md` R260). -/
inductive HostInput where
  | command (w : Word48)
  | rst
  deriving DecidableEq, Repr

/-- Why a step stops. There is no such reason: every command terminates with a response (`70_reset_and_hazards.md`
R268) and taking one of the spec's faults is a next state, so this type is empty and no meaning raises it (safe). -/
inductive Fault where
  deriving DecidableEq, Repr

/-- Why the model has no meaning for an instruction. The spec's refusals (`60_exceptions.md` R245) are responses of the
unit, hence next states, not these. -/
inductive Refusal where
  /-- Raised by an arm of `exec` whose instruction has no meaning yet; no arm is left so (safe: nothing is claimed). -/
  | notModelled (mnemonic : String)
  deriving DecidableEq, Repr

/-- The whole state. -/
structure State where
  /-- Parameters of `00_scope.md` R6; constant (assumption log 1). -/
  params : Params
  /-- Stream memory `SM`, owned by the host; constant (`20_memory.md` R61; assumption log 3). -/
  stream : Memory
  /-- Input `SM_LEN` (`70_reset_and_hazards.md` R271; assumption log 3). -/
  smLen : Word
  /-- What the host has yet to do, the next event first (`00_scope.md` R10; assumption log 2). -/
  inputs : List HostInput
  /-- The response to the last command (`30_encoding.md` R112; assumption log 6). -/
  rsp : Option Word48
  /-- `STATE` (`10_state.md` R40). -/
  mode : Mode
  /-- `WIDTH` (`10_state.md` R25). -/
  width : Half
  /-- `HEIGHT` (`10_state.md` R25). -/
  height : Half
  /-- The grid buffer `GB`, which is also the cells (`10_state.md` R21, R22). -/
  grid : Memory
  /-- `CURSOR`, the program counter (`10_state.md` R28). -/
  cursor : Word
  /-- `STREAM_LEN` (`10_state.md` R29). -/
  streamLen : Word
  /-- `FRAME_ID` (`10_state.md` R31). -/
  frameId : Word
  /-- `HDR_FRAME_COUNT` (`10_state.md` R32). -/
  hdrFrameCount : Word
  /-- `FAULT` (`10_state.md` R33). -/
  fault : Byte
  /-- `FAULT_ADDR` (`10_state.md` R33). -/
  faultAddr : Word
  /-- The model's own: how many free grids have been taken (assumption log 5). -/
  freeCount : Nat
  deriving DecidableEq, Repr

/-- The unit with given parameters right after hardware reset (`10_state.md` R45), no stream attached, no command
pending. -/
def State.resetWith (p : Params) : State :=
  { params := p
    stream := []
    smLen := 0
    inputs := []
    rsp := Option.none
    mode := Mode.unconf
    width := 0
    height := 0
    grid := []
    cursor := 0
    streamLen := 0
    frameId := 0
    hdrFrameCount := 0
    fault := 0
    faultAddr := 0
    freeCount := 0 }

/-- The machine right after reset, its parameters the opaque constants of Config. -/
def State.reset : State := State.resetWith Config.params

end Sys2Proof.Machine
end

