-- ==== Sys2Proof/Machine/Memory.lean ====
section
/-! DEFINITION. The operations over a byte memory held in canonical form: reading and writing one byte, filling from a
list of bytes, reading a run of bytes. -/

namespace Sys2Proof.Machine

/-- The canonical form: addresses strictly rising, no listed byte equal to 0. -/
abbrev Memory.wf (m : Memory) : Prop :=
  m.Pairwise (fun c d => c.1 < d.1) ∧ ∀ c ∈ m, c.2 ≠ 0

/-- Every listed address is below `n`. -/
abbrev Memory.below (m : Memory) (n : Nat) : Prop := ∀ c ∈ m, c.1 < n

/-- The byte at an address; 0 where nothing is listed. -/
def Memory.read : Memory → Nat → Byte
  | [], _ => 0
  | c :: m, a => if c.1 = a then c.2 else Memory.read m a

/-- List a byte at an address that is not listed. -/
def Memory.insert : Memory → Nat → Byte → Memory
  | [], a, v => [(a, v)]
  | c :: m, a, v => if a < c.1 then (a, v) :: c :: m else c :: Memory.insert m a v

/-- Write a byte; writing 0 unlists the address. -/
def Memory.write (m : Memory) (a : Nat) (v : Byte) : Memory :=
  if v = 0 then m.filter (fun c => c.1 != a) else Memory.insert (m.filter (fun c => c.1 != a)) a v

/-- The memory that holds `bytes` from address `a` up and zeros elsewhere. -/
def Memory.ofBytesAt : Nat → List Byte → Memory
  | _, [] => []
  | a, b :: bs => if b = 0 then Memory.ofBytesAt (a + 1) bs else (a, b) :: Memory.ofBytesAt (a + 1) bs

/-- The memory that holds `bytes` from address 0 up. -/
def Memory.ofBytes (bytes : List Byte) : Memory := Memory.ofBytesAt 0 bytes

/-- The `n` bytes from address `a` up. -/
def Memory.bytes (m : Memory) (a n : Nat) : List Byte := (List.range' a n).map (Memory.read m)

/-- Write consecutive bytes from address `a` up. -/
def Memory.writeBytes : Memory → Nat → List Byte → Memory
  | m, _, [] => m
  | m, a, b :: bs => Memory.writeBytes (Memory.write m a b) (a + 1) bs

end Sys2Proof.Machine
end

