-- ==== Sys2Proof/Machine/Operands.lean ====
section
/-! DEFINITION. The operand forms of the grid: derived sizes, coordinate wrapping, the place of a cell in the buffer, and
the bit order inside a byte. -/

namespace Sys2Proof.Machine

/-- `ceil(width / 8)` (`00_scope.md` R7, R8). -/
def strideOf (width : Nat) : Nat := (width + 7) / 8

/-- `ceil(width / 8) * height` (`00_scope.md` R7). -/
def gridBytesOf (width height : Nat) : Nat := strideOf width * height

/-- `STRIDE` (`10_state.md` R26). -/
def State.stride (s : State) : Nat := strideOf s.width.toNat

/-- `GRID_BYTES` (`10_state.md` R26). -/
def State.gridBytes (s : State) : Nat := gridBytesOf s.width.toNat s.height.toNat

/-- `CELLS` (`00_scope.md` R7). -/
def State.cells (s : State) : Nat := s.width.toNat * s.height.toNat

/-- The grid has a cell: `WIDTH > 0` and `HEIGHT > 0`. -/
def State.hasCells (s : State) : Bool := s.width != 0 && s.height != 0

/-- One coordinate wrapped: the Euclidean remainder (`40_grid_commands.md` R131). -/
def wrapCoord (x : Int) (dim : Nat) : Nat := (x % (dim : Int)).toNat

/-- The canonical column of `x` (`40_grid_commands.md` R131). -/
def State.wrapX (s : State) (x : Int) : Nat := wrapCoord x s.width.toNat

/-- The canonical row of `y` (`40_grid_commands.md` R131). -/
def State.wrapY (s : State) (y : Int) : Nat := wrapCoord y s.height.toNat

/-- `byte_index(x, y)` of a canonical cell in rows of `stride` bytes (`10_state.md` R22). -/
def byteIndex (stride x y : Nat) : Nat := x / 8 + y * stride

/-- `bit_offset(x)` (`10_state.md` R22). -/
def bitOffset (x : Nat) : Nat := x % 8

/-- The bit of a byte at bit offset `k`: the one of weight 2^k (`10_state.md` R23). The bit order stands here alone
(`92_eei_decisions.md` D1). -/
def offsetMask (k : Nat) : Byte := 1#8 <<< k

/-- The bit at offset `k` of a byte. -/
def bitAt (b : Byte) (k : Nat) : Bool := b &&& offsetMask k != 0

/-- A byte with its bit at offset `k` set to `v`, the seven others as they were. -/
def withBit (b : Byte) (k : Nat) (v : Bool) : Byte :=
  if v then b ||| offsetMask k else b &&& ~~~ offsetMask k

/-- A canonical cell of a buffer (`10_state.md` R22). -/
def readCell (stride : Nat) (g : Memory) (x y : Nat) : Bool :=
  bitAt (g.read (byteIndex stride x y)) (bitOffset x)

/-- A buffer with one canonical cell written: exactly one bit of one byte changes (`10_state.md` R22). -/
def writeCell (stride : Nat) (g : Memory) (x y : Nat) (v : Bool) : Memory :=
  g.write (byteIndex stride x y) (withBit (g.read (byteIndex stride x y)) (bitOffset x) v)

end Sys2Proof.Machine
end

