-- ==== Sys2Proof/Machine/Flags.lean ====
section
/-! DEFINITION. The flags (`10_state.md` R34 to R36) and the numbers of STATE. There are no arithmetic condition
codes. -/

namespace Sys2Proof.Machine

/-- The number of a STATE value (`10_state.md` R40). -/
def Mode.code : Mode → BitVec 2
  | .unconf => 0
  | .grid => 1
  | .dec => 2
  | .faulted => 3

/-- `FINISHED`: `STATE = DEC and CURSOR = STREAM_LEN` (`10_state.md` R36). -/
def State.finished (s : State) : Bool := decide (s.mode = Mode.dec) && decide (s.cursor = s.streamLen)

/-- `BG`, constant 0 (`10_state.md` R35). -/
def State.bg (_ : State) : Bool := false

/-- Status register 11, `FLAGS`: bit 0 FINISHED, bit 1 BG (`10_state.md` R30). -/
def State.flags (s : State) : Word :=
  (if s.finished then 1 else 0) ||| (if s.bg then 2 else 0)

end Sys2Proof.Machine
end

