-- ==== Sys2Proof/Machine/Ops.lean ====
section
/-! DEFINITION. The pseudocode primitives of `00_scope.md` R9 as operations on the state: respond, refuse, raise,
clear_grid, the grid byte and the cell, MemRead, the status registers; and hardware reset. -/

namespace Sys2Proof.Machine

/-- What a meaning answers. -/
abbrev Result := Host.Outcome State Fault Refusal

/-! ## Codes -/

/-- The `status` byte (`30_encoding.md` R112). -/
def Status.code : Status → Byte
  | .ok => 0x00
  | .none => 0x01
  | .refused => 0x02
  | .fault => 0x03

/-- The code of a refusal reason (`60_exceptions.md` R246). -/
def Reason.code : Reason → Byte
  | .badOpcode => 1
  | .badField => 2
  | .badState => 3
  | .badIndex => 4
  | .badSreg => 5
  | .zeroDim => 6
  | .badDim => 7

/-- The code of a fault (`60_exceptions.md` R231). -/
def FaultCode.code : FaultCode → Byte
  | .hdrShort => 1
  | .badMagic => 2
  | .badVersion => 3
  | .dimRange => 4
  | .capacity => 5
  | .badChunkKind => 6
  | .badCompression => 7
  | .rawLenMismatch => 8
  | .rleOverrun => 9

/-- A response word from its three fields (`30_encoding.md` R112). -/
def responseWord (status : Status) (aux : Byte) (data : Word) : Word48 := status.code ++ aux ++ data

/-- A bit as response data (`30_encoding.md` R113). -/
def bitData (b : Bool) : Word := if b then 1 else 0

/-- A byte as response data, zero-extended (`30_encoding.md` R113). -/
def byteData (b : Byte) : Word := b.setWidth 32

/-! ## Completing a command -/

/-- `respond(status, aux, data)` (`00_scope.md` R9). -/
def State.respond (s : State) (status : Status) (aux : Byte) (data : Word) : State :=
  { s with rsp := some (responseWord status aux data) }

/-- `respond(OK, 0, data)`. -/
def State.answer (s : State) (data : Word) : State := s.respond .ok 0 data

/-- `refuse R`: answered REFUSED, nothing else changes (`60_exceptions.md` R245). -/
def State.refuse (s : State) (r : Reason) : State := s.respond .refused 0 (byteData r.code)

/-- `raise F(addr)`: taking a fault (`60_exceptions.md` R240). -/
def State.raise (s : State) (f : FaultCode) (addr : Word) : State :=
  { s with
    fault := f.code
    faultAddr := addr
    mode := Mode.faulted
    rsp := some (responseWord .fault 0 (byteData f.code)) }

/-- The grid becomes unspecified (`60_exceptions.md` R240): a free value, cut to GRID_BYTES bytes (assumption log 5). -/
def State.looseGrid (s : State) : State :=
  { s with
    grid := Memory.ofBytes ((Config.freeGrid s.freeCount).take s.gridBytes)
    freeCount := s.freeCount + 1 }

/-- `raise F(c0)` by DNEXT: FAULT_ADDR is CURSOR, which still points at the chunk, and the grid's contents are
unspecified (`60_exceptions.md` R240). -/
def State.raiseChunk (s : State) (f : FaultCode) : State := s.looseGrid.raise f s.cursor

/-- Hardware reset, the only way out of FAULTED, there being no return from a fault (`60_exceptions.md` R242,
`70_reset_and_hazards.md` R260): every register as after reset, no response. What is outside the unit stays: the
parameters, the stream memory with SM_LEN, what the host has yet to send. -/
def State.hardReset (s : State) : State :=
  { State.resetWith s.params with
    stream := s.stream
    smLen := s.smLen
    inputs := s.inputs
    freeCount := s.freeCount }

/-- The state check of `40_grid_commands.md` R130, step 3: `body` where STATE is one of `legal`, else BAD_STATE
(`30_encoding.md` R106). -/
def State.legalIn (s : State) (legal : List Mode) (body : Result) : Result :=
  if s.mode ∈ legal then body else .next (s.refuse .badState)

/-- The zero-dimension check of GGET, GSET and GFLIP (`40_grid_commands.md` R133 to R135). -/
def State.withCells (s : State) (body : Result) : Result :=
  if s.hasCells then body else .next (s.refuse .zeroDim)

/-- The index check of GRDB and GWRB (`40_grid_commands.md` R137, R138). -/
def State.withIndex (s : State) (idx : Nat) (body : Result) : Result :=
  if s.gridBytes ≤ idx then .next (s.refuse .badIndex) else body

/-! ## The grid -/

/-- `GB[i]` (`00_scope.md` R9). -/
def State.gb (s : State) (i : Nat) : Byte := s.grid.read i

/-- `GB[i] <- v` (`00_scope.md` R9). -/
def State.setGb (s : State) (i : Nat) (v : Byte) : State := { s with grid := s.grid.write i v }

/-- `cell[x, y]` at canonical coordinates (`10_state.md` R21, R22). -/
def State.cell (s : State) (x y : Nat) : Bool := readCell s.stride s.grid x y

/-- `cell[x, y] <- v` at canonical coordinates (`10_state.md` R21, R22). -/
def State.setCell (s : State) (x y : Nat) (v : Bool) : State :=
  { s with grid := writeCell s.stride s.grid x y v }

/-- `clear_grid()`: every byte 0, padding bits too (`00_scope.md` R9). -/
def State.clearGrid (s : State) : State := { s with grid := [] }

/-! ## The stream -/

/-- The `n` bytes at stream offset `addr`, or nothing where they do not all lie below STREAM_LEN: `MemRead` is defined
only where they do (`20_memory.md` R62). -/
def State.memBytes (s : State) (addr n : Nat) : Option (List Byte) :=
  if addr + n ≤ s.streamLen.toNat then some (s.stream.bytes addr n) else Option.none

/-- `header_read` (`30_encoding.md` R103); offsets 24 to 127 are not read (`20_memory.md` R66). -/
def State.headerRead (s : State) : Option Header :=
  if s.streamLen.toNat < headerBytes then Option.none else some (parseHeader (s.stream.bytes 0 24))

/-- `chunk_read(c)` (`30_encoding.md` R103). -/
def State.chunkRead (s : State) (c : Nat) : Option ChunkHeader :=
  (s.memBytes c chunkHeaderBytes).map parseChunkHeader

/-- The payload of the chunk at CURSOR, or nothing where it runs past the buffer (`41_decoder_commands.md` R163). -/
def State.payloadRead (s : State) (payloadSize : Nat) : Option (List Byte) :=
  s.memBytes (s.cursor.toNat + chunkHeaderBytes) payloadSize

/-- End of stream: CURSOR is pinned and the answer is NONE (`60_exceptions.md` R244). -/
def State.endOfStream (s : State) : State := ({ s with cursor := s.streamLen }).respond .none 0 0

/-- The last lines of DNEXT: the grid is the frame, CURSOR moves past the chunk, FRAME_ID counts it and is answered, with
`aux` bit 0 = BG (`41_decoder_commands.md` R163, `30_encoding.md` R113). -/
def State.frameDone (s : State) (payloadSize : Nat) (frame : Memory) : State :=
  ({ s with
    grid := frame
    cursor := BitVec.ofNat 32 (s.cursor.toNat + chunkHeaderBytes + payloadSize)
    frameId := s.frameId + 1 }).respond .ok (if s.bg then 1 else 0) (s.frameId + 1)

/-- Running the chunk at CURSOR, whose payload `body` turns into the grid buffer or a fault (`41_decoder_commands.md`
R163; `42_chunk_execution.md` R190, R200). Where the unit is not in DEC or the chunk does not fit the buffer, what DNEXT
does there: BAD_STATE, end of stream (assumption log 8). -/
def State.runChunk (s : State) (payloadSize : Nat) (body : List Byte → Except FaultCode Memory) : Result :=
  s.legalIn [.dec] <|
    match s.payloadRead payloadSize with
    | Option.none => .next s.endOfStream
    | some payload =>
      match body payload with
      | .error f => .next (s.raiseChunk f)
      | .ok frame => .next (s.frameDone payloadSize frame)

/-! ## Status registers -/

/-- `SR[n]` zero-extended to 32 bits, for the twelve registers (`10_state.md` R30); nothing above 11. -/
def State.statusRegister (s : State) : Nat → Option Word
  | 0 => some (s.mode.code.setWidth 32)
  | 1 => some (s.width.setWidth 32)
  | 2 => some (s.height.setWidth 32)
  | 3 => some (BitVec.ofNat 32 s.stride)
  | 4 => some (BitVec.ofNat 32 s.gridBytes)
  | 5 => some s.cursor
  | 6 => some s.streamLen
  | 7 => some s.frameId
  | 8 => some (s.fault.setWidth 32)
  | 9 => some s.faultAddr
  | 10 => some s.hdrFrameCount
  | 11 => some s.flags
  | _ => Option.none

end Sys2Proof.Machine
end

