-- ==== Sys2Proof/Machine/ChunkExecution.lean ====
section
/-! DEFINITION. The two instructions of the stream (`42_chunk_execution.md`): what each makes of width, height and
payload (R200), and its meaning at CURSOR. -/

namespace Sys2Proof.Machine

/-- `exec_raw`: the payload is the buffer, byte for byte, if its length is GRID_BYTES (`42_chunk_execution.md` R194). -/
def rawFrame (width height : Nat) (payload : List Byte) : Except FaultCode Memory :=
  if payload.length ≠ gridBytesOf width height then .error .rawLenMismatch
  else .ok (Memory.ofBytes payload)

/-- `cell[q mod WIDTH, q div WIDTH] <- 1` for `run` cells from index `p` up (`42_chunk_execution.md` R192, R196). -/
def setRun (width : Nat) : Memory → Nat → Nat → Memory
  | g, _, 0 => g
  | g, p, run + 1 => setRun width (writeCell (strideOf width) g (p % width) (p / width) true) (p + 1) run

/-- One turn of the walk of `exec_rle`: an unset run `u`, then a set run `v`, from cell index `p`; the buffer and the
next index, or RLE_OVERRUN (`42_chunk_execution.md` R196). -/
def rlePair (width height : Nat) (g : Memory) (p u v : Nat) : Except FaultCode (Memory × Nat) :=
  if p + u > width * height then .error .rleOverrun
  else if p + u + v > width * height then .error .rleOverrun
  else .ok (setRun width g (p + u) v, p + u + v)

/-- The walk of `exec_rle` from cell index `p`, a missing trailing byte treated as 0 (`42_chunk_execution.md` R196). -/
def rleWalk (width height : Nat) : Memory → Nat → List Byte → Except FaultCode Memory
  | g, _, [] => .ok g
  | g, p, [u] =>
    match rlePair width height g p u.toNat 0 with
    | .error f => .error f
    | .ok (g', _) => .ok g'
  | g, p, u :: v :: rest =>
    match rlePair width height g p u.toNat v.toNat with
    | .error f => .error f
    | .ok (g', p') => rleWalk width height g' p' rest

/-- `exec_rle`: from a cleared grid at cell index 0 (`42_chunk_execution.md` R196). -/
def rleFrame (width height : Nat) (payload : List Byte) : Except FaultCode Memory :=
  rleWalk width height [] 0 payload

/-- `FRAME.RAW`, the chunk at CURSOR (`42_chunk_execution.md` R194); the background byte is dropped (R191). -/
def execFrameRaw (payloadSize : Nat) (_background : Byte) (s : State) : Result :=
  s.runChunk payloadSize (rawFrame s.width.toNat s.height.toNat)

/-- `FRAME.RLE`, the chunk at CURSOR (`42_chunk_execution.md` R196); the background byte is dropped (R191). -/
def execFrameRle (payloadSize : Nat) (_background : Byte) (s : State) : Result :=
  s.runChunk payloadSize (rleFrame s.width.toNat s.height.toNat)

end Sys2Proof.Machine
end

