-- ==== Sys2Proof/Machine/GridCommands.lean ====
section
/-! DEFINITION. The seven grid commands (`40_grid_commands.md`); the laws of R141 are laws of these meanings. The opcode
and field checks of R130 are the decoder's. -/

namespace Sys2Proof.Machine

/-- The grid a GNEW or a DINIT makes fits the backing store (`00_scope.md` R6, `40_grid_commands.md` R132). -/
def Params.fits (p : Params) (width height : Nat) : Bool := decide (gridBytesOf width height ≤ p.gridCapBytes.val)

/-- `GNEW width, height` (`40_grid_commands.md` R132). -/
def execGnew (width height : Int) (s : State) : Result :=
  s.legalIn [.unconf] <|
    if width < 0 ∨ height < 0 then .next (s.refuse .badDim)
    else if Params.fits s.params width.toNat height.toNat then
      .next (({ s with
        width := BitVec.ofInt 16 width
        height := BitVec.ofInt 16 height
        mode := Mode.grid }).clearGrid.answer 0)
    else .next (s.refuse .badDim)

/-- `GGET x, y` (`40_grid_commands.md` R133). -/
def execGget (x y : Int) (s : State) : Result :=
  s.legalIn [.grid, .dec] <| s.withCells <|
    .next (s.answer (bitData (s.cell (s.wrapX x) (s.wrapY y))))

/-- `GSET x, y, v` (`40_grid_commands.md` R134). -/
def execGset (x y : Int) (v : Bool) (s : State) : Result :=
  s.legalIn [.grid] <| s.withCells <|
    .next ((s.setCell (s.wrapX x) (s.wrapY y) v).answer (bitData (s.cell (s.wrapX x) (s.wrapY y))))

/-- `GFLIP x, y` (`40_grid_commands.md` R135). -/
def execGflip (x y : Int) (s : State) : Result :=
  s.legalIn [.grid] <| s.withCells <|
    .next ((s.setCell (s.wrapX x) (s.wrapY y) (!s.cell (s.wrapX x) (s.wrapY y))).answer
      (bitData (s.cell (s.wrapX x) (s.wrapY y))))

/-- `GCLR` (`40_grid_commands.md` R136). -/
def execGclr (s : State) : Result :=
  s.legalIn [.grid] <| .next (s.clearGrid.answer 0)

/-- `GRDB idx` (`40_grid_commands.md` R137). -/
def execGrdb (idx : Nat) (s : State) : Result :=
  s.legalIn [.grid, .dec] <| s.withIndex idx <|
    .next (s.answer (byteData (s.gb idx)))

/-- `GWRB idx, data` (`40_grid_commands.md` R138). -/
def execGwrb (idx : Nat) (data : Byte) (s : State) : Result :=
  s.legalIn [.grid] <| s.withIndex idx <|
    .next ((s.setGb idx data).answer 0)

end Sys2Proof.Machine
end

