-- ==== Sys2Proof/Machine/DecoderCommands.lean ====
section
/-! DEFINITION. The decoder commands and the status read-out (`41_decoder_commands.md`). -/

namespace Sys2Proof.Machine

/-- The header checks of DINIT in their order, after the length check: the first that fails
(`41_decoder_commands.md` R161, `60_exceptions.md` R243). -/
def Params.headerFault (p : Params) (h : Header) : Option FaultCode :=
  if h.magic ≠ p.magic then some .badMagic
  else if h.version ≠ p.supportedVersion.toNat then some .badVersion
  else if h.width > maxDim ∨ h.height > maxDim then some .dimRange
  else if Params.fits p h.width h.height then Option.none
  else some .capacity

/-- A decoder made from an accepted header (`41_decoder_commands.md` R161). -/
def State.construct (s : State) (h : Header) : State :=
  ({ s with
    width := BitVec.ofNat 16 h.width
    height := BitVec.ofNat 16 h.height
    hdrFrameCount := BitVec.ofNat 32 h.frameCount
    cursor := BitVec.ofNat 32 headerBytes
    frameId := 0
    mode := Mode.dec }).clearGrid.answer 0

/-- `STREAM_LEN <- SM_LEN`, the first thing DINIT does (`41_decoder_commands.md` R161). -/
def State.latchLen (s : State) : State := { s with streamLen := s.smLen }

/-- `DINIT` (`41_decoder_commands.md` R161). -/
def execDinit (s : State) : Result :=
  s.legalIn [.unconf] <|
    match s.latchLen.headerRead with
    | Option.none => .next (s.latchLen.raise .hdrShort 0)
    | some h =>
      match Params.headerFault s.params h with
      | some f => .next (s.latchLen.raise f 0)
      | Option.none => .next (s.latchLen.construct h)

/-- `DNEXT` (`41_decoder_commands.md` R163): both length tests come before the kind and compression tests. -/
def execDnext (s : State) : Result :=
  s.legalIn [.dec] <|
    match s.chunkRead s.cursor.toNat with
    | Option.none => .next s.endOfStream
    | some h =>
      match s.payloadRead h.payloadSize with
      | Option.none => .next s.endOfStream
      | some _ =>
        match h.form with
        | .error .truncated => .next s.endOfStream
        | .error .badKind => .next (s.raiseChunk .badChunkKind)
        | .error .badCompression => .next (s.raiseChunk .badCompression)
        | .ok .raw => execFrameRaw h.payloadSize h.background s
        | .ok .rle => execFrameRle h.payloadSize h.background s

/-- `DFIN` (`41_decoder_commands.md` R165). -/
def execDfin (s : State) : Result :=
  s.legalIn [.dec] <| .next (s.answer (bitData (decide (s.cursor = s.streamLen))))

/-- `DREW` (`41_decoder_commands.md` R166). -/
def execDrew (s : State) : Result :=
  s.legalIn [.dec] <|
    .next (({ s with cursor := BitVec.ofNat 32 headerBytes, frameId := 0 }).clearGrid.answer 0)

/-- `RDSR n` (`41_decoder_commands.md` R169). -/
def execRdsr (n : Nat) (s : State) : Result :=
  s.legalIn [.unconf, .grid, .dec, .faulted] <|
    match s.statusRegister n with
    | Option.none => .next (s.refuse .badSreg)
    | some v => .next (s.answer v)

end Sys2Proof.Machine
end

