-- ==== Sys2Proof/Machine/Dispatch.lean ====
section
/-! DEFINITION. One arm per instruction, each a direct call of its meaning. -/

namespace Sys2Proof.Machine

def exec (i : Instr) (s : State) : Host.Outcome State Fault Refusal :=
  match i with
  | .gnew width height => Sys2Proof.Machine.execGnew width height s
  | .gget x y => Sys2Proof.Machine.execGget x y s
  | .gset x y v => Sys2Proof.Machine.execGset x y v s
  | .gflip x y => Sys2Proof.Machine.execGflip x y s
  | .gclr => Sys2Proof.Machine.execGclr s
  | .grdb idx => Sys2Proof.Machine.execGrdb idx s
  | .gwrb idx data => Sys2Proof.Machine.execGwrb idx data s
  | .dinit => Sys2Proof.Machine.execDinit s
  | .dnext => Sys2Proof.Machine.execDnext s
  | .dfin => Sys2Proof.Machine.execDfin s
  | .drew => Sys2Proof.Machine.execDrew s
  | .rdsr n => Sys2Proof.Machine.execRdsr n s
  | .frameRaw payloadSize background => Sys2Proof.Machine.execFrameRaw payloadSize background s
  | .frameRle payloadSize background => Sys2Proof.Machine.execFrameRle payloadSize background s

end Sys2Proof.Machine
end

