-- ==== Sys2Proof/Machine/Fetch.lean ====
section
/-! DEFINITION. Taking the host's next event: a command word decoded, or RST; and placing an instruction where the next
step takes it. -/

namespace Sys2Proof.Machine

/-- What the next step has to do. -/
inductive Fetched where
  /-- The host does nothing: no state changes (`00_scope.md` R10). -/
  | idle
  /-- The step is over: RST was taken, or the word was refused. -/
  | done (s : State)
  /-- The command is well formed and is executed from this state. -/
  | run (i : Instr) (s : State)
  deriving DecidableEq, Repr

/-- The reason a word that is no instruction is refused with (`30_encoding.md` R108, R109). -/
def rejectReason : CommandReject → Reason
  | .badOpcode => .badOpcode
  | .badField => .badField

/-- The state with the host's next event taken. -/
def State.withInputs (s : State) (rest : List HostInput) : State := { s with inputs := rest }

/-- Take the host's next event (`00_scope.md` R10, `70_reset_and_hazards.md` R260): checks 1 and 2 of
`40_grid_commands.md` R130 are made here. -/
def fetch (s : State) : Fetched :=
  match s.inputs with
  | [] => .idle
  | .rst :: rest => .done (s.withInputs rest).hardReset
  | .command w :: rest =>
    match decodeCommand w with
    | .error why => .done ((s.withInputs rest).refuse (rejectReason why))
    | .ok i => .run i (s.withInputs rest)

/-- The state with a command word as the host's next event. -/
def State.placeCommand (s : State) (w : Word48) : State := { s with inputs := .command w :: s.inputs }

/-- Where a chunk is placed: at CURSOR in DEC, else at the entry point (`20_memory.md` R69). -/
def State.chunkPlace (s : State) : Nat := if s.mode = Mode.dec then s.cursor.toNat else headerBytes

/-- The state with a chunk of six header bytes and a payload of zeros at CURSOR, in DEC, and DNEXT as the host's next
event (assumption log 7). -/
def State.placeChunk (s : State) (header : List Byte) (payloadSize : Nat) : State :=
  { s with
    stream := Memory.writeBytes
      (s.stream.filter (fun c => decide (c.1 < s.chunkPlace)
        || decide (s.chunkPlace + chunkHeaderBytes + payloadSize ≤ c.1))) s.chunkPlace header
    mode := Mode.dec
    cursor := BitVec.ofNat 32 s.chunkPlace
    streamLen := BitVec.ofNat 32 (max s.streamLen.toNat (s.chunkPlace + chunkHeaderBytes + payloadSize))
    inputs := .command (commandWord Opcode.dnext.byte 0 0 0) :: s.inputs }

/-- The state with a table row's instruction where the next step takes it (assumption log 7). -/
def State.placeTableWord (s : State) (w : Word48) : State :=
  match decodeCommand w with
  | .ok _ => s.placeCommand w
  | .error _ =>
    match decodeChunk (tableBytes w) with
    | .ok _ => s.placeChunk (tableBytes w) (parseChunkHeader (tableBytes w)).payloadSize
    | .error _ => s.placeCommand w

end Sys2Proof.Machine
end

