-- ==== Sys2Proof/Machine/Step.lean ====
section
/-! DEFINITION. One step: the host's next event, taken and executed to completion (`00_scope.md` R10). -/

namespace Sys2Proof.Machine

/-- One command, executed to completion (`00_scope.md` R10), or one RST (`70_reset_and_hazards.md` R260), or nothing. -/
def step (s : State) : Host.Outcome State Fault Refusal :=
  match fetch s with
  | .idle => .next s
  | .done t => .next t
  | .run i t => exec i t

/-- The state whose next step runs the instruction of a table row (assumption log 7). -/
def State.withFetchWord (s : State) (nbits w : Nat) : State := s.placeTableWord (tableWord nbits w)

end Sys2Proof.Machine
end

