-- ==== Sys2Proof/Machine/HostEncoder.lean ====
section
/-! DEFINITION. The reference encoder of `43_reference_encoder.md`: host-side pure functions, not part of the unit
(`00_scope.md` R5). No instruction runs them; the round-trip statements are stated through them. -/

namespace Sys2Proof.Machine

/-- A grid as the encoder is given it (`43_reference_encoder.md` R210). -/
structure HostFrame where
  width : Nat
  height : Nat
  bytes : List Byte
  deriving DecidableEq, Repr

/-- A cell of a host-side grid (`10_state.md` R22). -/
def HostFrame.cell (f : HostFrame) (x y : Nat) : Bool :=
  bitAt (f.bytes.getD (byteIndex (strideOf f.width) x y) 0) (bitOffset x)

/-- The cells in row-major scan order (`42_chunk_execution.md` R192). -/
def HostFrame.pixels (f : HostFrame) : List Bool :=
  (List.range (f.width * f.height)).map (fun p => f.cell (p % f.width) (p / f.width))

/-- The scan of `runs(G)` with its current colour and its 8-bit counter (`43_reference_encoder.md` R213, R214). -/
def runsFrom : Bool → Nat → List Bool → List Byte
  | _, count, [] => if count ≠ 0 then [BitVec.ofNat 8 count] else []
  | color, count, bit :: rest =>
    if bit ≠ color then BitVec.ofNat 8 count :: runsFrom bit 1 rest
    else runsFrom color ((count + 1) % 256) rest

/-- `runs(G)` (`43_reference_encoder.md` R213). -/
def HostFrame.runs (f : HostFrame) : List Byte := runsFrom false 0 f.pixels

/-- `raw(G)` (`43_reference_encoder.md` R212). -/
def HostFrame.raw (f : HostFrame) : List Byte :=
  chunkHeaderOf (gridBytesOf f.width f.height) 0 0 ++ f.bytes

/-- `rle(G)` (`43_reference_encoder.md` R215). -/
def HostFrame.rle (f : HostFrame) : List Byte := chunkHeaderOf f.runs.length 1 0 ++ f.runs

/-- `chunk(G)`: the smaller encoding, uncompressed on a tie (`43_reference_encoder.md` R216). -/
def HostFrame.chunk (f : HostFrame) : List Byte := if f.rle.length < f.raw.length then f.rle else f.raw

/-- `header(fc, w, h)` (`43_reference_encoder.md` R211). -/
def Params.header (p : Params) (frameCount width height : Nat) : List Byte :=
  p.magic ++ leBytes 4 p.supportedVersion.toNat ++ leBytes 4 frameCount ++ leBytes 2 width ++ leBytes 2 height
    ++ List.replicate 104 0

/-- The preconditions of `43_reference_encoder.md` R218, for frames that should all be `width` by `height`. -/
def HostFrame.encodable (f : HostFrame) (width height : Nat) : Bool :=
  decide (f.width = width) && decide (f.height = height) && decide (f.bytes.length = gridBytesOf width height)
    && decide (f.chunk.length ≤ chunkHeaderBytes + 65535)

/-- `encode(frames)`; nothing outside the preconditions (`43_reference_encoder.md` R211, R218). -/
def Params.encodeFrames (p : Params) (frames : List HostFrame) : Option (List Byte) :=
  match frames with
  | [] => some (Params.header p 0 0 0)
  | f :: _ =>
    if f.width ≤ maxDim ∧ f.height ≤ maxDim ∧ frames.length < 4294967296
        ∧ frames.all (fun g => g.encodable f.width f.height) then
      some (Params.header p frames.length f.width f.height ++ (frames.map HostFrame.chunk).flatten)
    else Option.none

/-- The unit with a byte string attached as its stream memory, `SM_LEN` its length (`70_reset_and_hazards.md` R262). -/
def State.attach (s : State) (bytes : List Byte) : State :=
  { s with stream := Memory.ofBytes bytes, smLen := BitVec.ofNat 32 bytes.length }

end Sys2Proof.Machine
end

