-- ==== Sys2Proof/Safety.lean ====
section
/-! DEFINITION. The terms the statements use: what a safe state is (`10_state.md` R46), the tables of `30_encoding.md`
as data, what a run-length payload denotes, and repeated DNEXT. -/

namespace Sys2Proof.Machine

/-! ## Words and tables -/

/-- A response word from the numbers of its three fields (`30_encoding.md` R112). -/
def rsp48 (status aux data : Nat) : Word48 := BitVec.ofNat 48 (status * 2 ^ 40 + aux * 2 ^ 32 + data)

/-- `s` with a command refused for the reason of that code: the response and nothing else (`60_exceptions.md` R245). -/
def refusedWith (s : State) (code : Nat) : State := { s with rsp := some (rsp48 2 0 code) }

/-- `s` with the fault of that code taken (`60_exceptions.md` R240). -/
def faultedWith (s : State) (code : Nat) (addr : Word) : State :=
  { s with
    fault := BitVec.ofNat 8 code
    faultAddr := addr
    mode := Mode.faulted
    rsp := some (rsp48 3 0 code) }

/-- The rows (match, mask) of spec/opcode_table.json for the twelve commands. -/
def commandRows : List (Word48 × Word48) :=
  [(0x010000000000, 0xFFFF00000000), (0x020000000000, 0xFFFF00000000), (0x030000000000, 0xFFFE00000000),
   (0x040000000000, 0xFFFF00000000), (0x050000000000, 0xFFFFFFFFFFFF), (0x060000000000, 0xFFFF00000000),
   (0x070000000000, 0xFF0000000000), (0x100000000000, 0xFFFFFFFFFFFF), (0x110000000000, 0xFFFFFFFFFFFF),
   (0x120000000000, 0xFFFFFFFFFFFF), (0x130000000000, 0xFFFFFFFFFFFF), (0x200000000000, 0xFFFFFFFF0000)]

/-- The row (match, mask) of spec/opcode_table.json of a command; nothing for the two chunk forms. -/
def commandRow : Instr → Option (Word48 × Word48)
  | .gnew _ _ => some (0x010000000000, 0xFFFF00000000)
  | .gget _ _ => some (0x020000000000, 0xFFFF00000000)
  | .gset _ _ _ => some (0x030000000000, 0xFFFE00000000)
  | .gflip _ _ => some (0x040000000000, 0xFFFF00000000)
  | .gclr => some (0x050000000000, 0xFFFFFFFFFFFF)
  | .grdb _ => some (0x060000000000, 0xFFFF00000000)
  | .gwrb _ _ => some (0x070000000000, 0xFF0000000000)
  | .dinit => some (0x100000000000, 0xFFFFFFFFFFFF)
  | .dnext => some (0x110000000000, 0xFFFFFFFFFFFF)
  | .dfin => some (0x120000000000, 0xFFFFFFFFFFFF)
  | .drew => some (0x130000000000, 0xFFFFFFFFFFFF)
  | .rdsr _ => some (0x200000000000, 0xFFFFFFFF0000)
  | .frameRaw _ _ => none
  | .frameRle _ _ => none

/-- The legality table of `30_encoding.md` R106. A chunk form, which R106 does not list, has DNEXT's row (assumption
log 8). -/
def legalModes : Instr → List Mode
  | .gnew _ _ => [.unconf]
  | .gget _ _ => [.grid, .dec]
  | .gset _ _ _ => [.grid]
  | .gflip _ _ => [.grid]
  | .gclr => [.grid]
  | .grdb _ => [.grid, .dec]
  | .gwrb _ _ => [.grid]
  | .dinit => [.unconf]
  | .dnext => [.dec]
  | .dfin => [.dec]
  | .drew => [.dec]
  | .rdsr _ => [.unconf, .grid, .dec, .faulted]
  | .frameRaw _ _ => [.dec]
  | .frameRle _ _ => [.dec]

/-- The instructions that fetch or execute a chunk: DNEXT and the two chunk forms it runs (assumption log 8). -/
def runsChunk : Instr → Bool
  | .dnext => true
  | .frameRaw _ _ => true
  | .frameRle _ _ => true
  | _ => false

/-- The seven grid commands of `40_grid_commands.md`. -/
def isGridCommand : Instr → Bool
  | .gnew _ _ => true
  | .gget _ _ => true
  | .gset _ _ _ => true
  | .gflip _ _ => true
  | .gclr => true
  | .grdb _ => true
  | .gwrb _ _ => true
  | _ => false

/-- The payload size DNEXT finds at CURSOR, or a chunk form carries (`41_decoder_commands.md` R163). -/
def chunkSize (i : Instr) (s : State) : Nat :=
  match i with
  | .frameRaw n _ => n
  | .frameRle n _ => n
  | _ => (s.stream.read (s.cursor.toNat + 2)).toNat + 256 * (s.stream.read (s.cursor.toNat + 3)).toNat

/-- The `status` field of the response the state holds (`30_encoding.md` R112). -/
def answerStatus (s : State) : Option Nat := s.rsp.map (fun r => (r.extractLsb' 40 8).toNat)

/-- The `aux` field of the response the state holds (`30_encoding.md` R112). -/
def answerAux (s : State) : Option Nat := s.rsp.map (fun r => (r.extractLsb' 32 8).toNat)

/-- A result with its next state changed by `f`: for comparing two runs. -/
def mapNext (f : State → State) : Result → Result
  | .next t => .next (f t)
  | .fault r => .fault r
  | .refused r => .refused r

/-! ## The grid as the rules write it -/

/-- `cell[x, y]` by `10_state.md` R22 and R23: bit `x mod 8` of byte `x div 8 + y * STRIDE`. -/
def cellBit (s : State) (x y : Nat) : Bool :=
  (s.grid.read (x / 8 + y * ((s.width.toNat + 7) / 8))).getLsbD (x % 8)

/-- The column a coordinate wraps to, `x mod WIDTH` (`40_grid_commands.md` R131). -/
def colOf (s : State) (x : Int) : Nat := (x % (s.width.toNat : Int)).toNat

/-- The row a coordinate wraps to, `y mod HEIGHT` (`40_grid_commands.md` R131). -/
def rowOf (s : State) (y : Int) : Nat := (y % (s.height.toNat : Int)).toNat

/-- The byte that holds the cell a coordinate pair wraps to (`10_state.md` R22). -/
def cellByte (s : State) (x y : Int) : Nat := colOf s x / 8 + rowOf s y * ((s.width.toNat + 7) / 8)

/-! ## The stream as the rules write it -/

/-- `MemRead(addr, 1)` (`20_memory.md` R62). -/
def mem1 (s : State) (addr : Nat) : Nat := (s.stream.read addr).toNat

/-- `MemRead(addr, 2)` (`20_memory.md` R62). -/
def mem2 (s : State) (addr : Nat) : Nat := mem1 s addr + 256 * mem1 s (addr + 1)

/-- `MemRead(addr, 4)` (`20_memory.md` R62). -/
def mem4 (s : State) (addr : Nat) : Nat :=
  mem1 s addr + 256 * mem1 s (addr + 1) + 65536 * mem1 s (addr + 2) + 16777216 * mem1 s (addr + 3)

/-- The chunk header at CURSOR and its payload lie inside the buffer (`41_decoder_commands.md` R163). -/
def chunkComplete (s : State) : Prop :=
  s.cursor.toNat + 6 ≤ s.streamLen.toNat
    ∧ s.cursor.toNat + 6 + mem2 s (s.cursor.toNat + 2) ≤ s.streamLen.toNat

/-- The cells a run-length payload denotes in scan order: runs of alternating colour, the first unset
(`30_encoding.md` R101). -/
def expandRuns : Bool → List Byte → List Bool
  | _, [] => []
  | color, r :: rs => List.replicate r.toNat color ++ expandRuns (!color) rs

/-- The number of cells the runs of a payload cover. -/
def runTotal (payload : List Byte) : Nat := (payload.map BitVec.toNat).sum

/-- The lengths of the maximal runs of a scan, the first unset and possibly 0, not narrowed to a byte
(`43_reference_encoder.md` R213, R217). -/
def runLengths : Bool → Nat → List Bool → List Nat
  | _, count, [] => if count ≠ 0 then [count] else []
  | color, count, bit :: rest =>
    if bit ≠ color then count :: runLengths bit 1 rest else runLengths color (count + 1) rest

/-- No run of the frame is longer than 255 cells (`43_reference_encoder.md` R217). -/
def HostFrame.runsFit (f : HostFrame) : Prop := ∀ n ∈ runLengths false 0 f.pixels, n ≤ 255

/-! ## Invariant -/

/-- The stream's header passed every check of DINIT and is the one the registers were filled from
(`41_decoder_commands.md` R161). -/
def State.headerAccepted (s : State) : Prop :=
  ∃ h, s.headerRead = some h ∧ Params.headerFault s.params h = none
    ∧ s.width = BitVec.ofNat 16 h.width ∧ s.height = BitVec.ofNat 16 h.height
    ∧ s.hdrFrameCount = BitVec.ofNat 32 h.frameCount

/-- The invariants of `10_state.md` R46, items (i) to (vi), strengthened so that every step keeps them, with the bound of
R31 on FRAME_ID and the canonical form of the memories. -/
structure State.Inv (s : State) : Prop where
  dims : s.width.toNat ≤ 32767 ∧ s.height.toNat ≤ 32767
  unconf : s.mode = Mode.unconf → s.width = 0 ∧ s.height = 0 ∧ s.fault = 0 ∧ s.cursor = 0 ∧ s.streamLen = 0
    ∧ s.frameId = 0 ∧ s.hdrFrameCount = 0
  faulted : s.mode = Mode.faulted ↔ s.fault ≠ 0
  faultCode : s.fault.toNat ≤ 9
  faultAddr : s.faultAddr = if 6 ≤ s.fault.toNat then s.cursor else 0
  cursor : s.mode = Mode.dec → 128 ≤ s.cursor.toNat ∧ s.cursor.toNat ≤ s.streamLen.toNat
  header : s.mode = Mode.dec → s.headerAccepted
  capacity : s.gridBytes ≤ s.params.gridCapBytes.val
  standAlone : s.mode = Mode.grid → s.cursor = 0 ∧ s.streamLen = 0 ∧ s.frameId = 0 ∧ s.hdrFrameCount = 0
  frames : s.mode = Mode.dec → 128 + 6 * s.frameId.toNat ≤ s.cursor.toNat
  gridForm : Memory.wf s.grid
  gridBelow : Memory.below s.grid s.gridBytes
  streamForm : Memory.wf s.stream

/-! ## Repeated DNEXT -/

/-- The state after `n` DNEXT commands sent one after another. -/
def dnexts : Nat → State → Option State
  | 0, s => some s
  | n + 1, s =>
    match exec .dnext s with
    | .next t => dnexts n t
    | .fault _ => none
    | .refused _ => none

/-- The state after `n` DNEXT commands sent one after another, each of them answered OK. -/
def okDnexts : Nat → State → Option State
  | 0, s => some s
  | n + 1, s =>
    match exec .dnext s with
    | .next t => if answerStatus t = some 0 then okDnexts n t else none
    | .fault _ => none
    | .refused _ => none

/-! ## Pseudo-commands (`30_encoding.md` R117) -/

/-- `GSET1 x, y`. -/
def gset1 (x y : Int) : Instr := .gset x y true

/-- `GSET0 x, y`. -/
def gset0 (x y : Int) : Instr := .gset x y false

/-- `STAT`. -/
def stat : Instr := .rdsr 0

/-- `DRAIN`: DNEXT again and again until an answer NONE or FAULT, at most `n` times; nothing where that is not enough. -/
def drain : Nat → State → Option State
  | 0, _ => none
  | n + 1, s =>
    match exec .dnext s with
    | .next t => if answerStatus t = some 1 ∨ answerStatus t = some 3 then some t else drain n t
    | .fault _ => none
    | .refused _ => none

/-- `REPLAY`: DREW, then DRAIN. -/
def replay (n : Nat) (s : State) : Option State :=
  match exec .drew s with
  | .next t => drain n t
  | .fault _ => none
  | .refused _ => none

end Sys2Proof.Machine
end

