-- ==== Sys2Proof/Certificates/Slice0/Obligations.lean ====
section
/-! DEFINITION. The statements for the provers, from the numbered rules of spec/. -/

open Sys2Proof Sys2Proof.Machine

/-! ## Encodings -/

/-- Decoding the encoding of a well-formed instruction gives it back, every operand at every value
(`30_encoding.md` R97, R98, R104, R105, R107). -/
def Obligations.DecodeInvertsEncode : Prop :=
  ∀ i : Instr, i.wellFormed = true → decode (encode i) = .ok i

/-- A word that decodes to a command is that command's encoding, bit for bit, and the command is well formed
(`30_encoding.md` R104 to R108). -/
def Obligations.EncodeInvertsDecodeOfCommands : Prop :=
  ∀ (w : Word48) (i : Instr), decodeCommand w = .ok i → encode i = .command w ∧ i.wellFormed = true

/-- The command half of `30_encoding.md` R118: no row's opcode, BAD_OPCODE; a row's opcode without the row's match,
BAD_FIELD; a row's match, that row's command. -/
def Obligations.CommandWordsDecodeByTheTable : Prop :=
  ∀ w : Word48,
    ((∀ row ∈ commandRows, w.extractLsb' 40 8 ≠ row.1.extractLsb' 40 8) → decodeCommand w = .error .badOpcode)
      ∧ (∀ row ∈ commandRows, w.extractLsb' 40 8 = row.1.extractLsb' 40 8 → w &&& row.2 ≠ row.1 →
          decodeCommand w = .error .badField)
      ∧ (∀ row ∈ commandRows, w &&& row.2 = row.1 → ∃ i, decodeCommand w = .ok i ∧ commandRow i = some row)

/-- Words written out in the spec decode to the instructions they stand for: V1, V2, V22, V62, S3 and P1 of
`95_test_vectors.md`, and the example of `40_grid_commands.md` R133. -/
def Obligations.WordsOfTheSpecDecode : Prop :=
  decodeCommand 0x010000030002 = .ok (.gnew 3 2)
    ∧ decodeCommand 0x02000004FFFF = .ok (.gget 4 (-1))
    ∧ decodeCommand 0x03010004FFFF = .ok (.gset 4 (-1) true)
    ∧ decodeCommand 0x0400FFFE0002 = .ok (.gflip (-2) 2)
    ∧ decodeCommand 0x060000011170 = .ok (.grdb 70000)
    ∧ decodeCommand 0x07FD00000001 = .ok (.gwrb 1 0xFD)
    ∧ decodeCommand 0x200000000007 = .ok (.rdsr 7)
    ∧ decodeChunk [0x01, 0x00, 0x1E, 0x00, 0x00, 0x00] = .ok (.frameRaw 30 0)
    ∧ decodeChunk [0x01, 0x00, 0x02, 0x00, 0x01, 0xFF] = .ok (.frameRle 2 0xFF)

/-- Six chunk-header bytes decode by kind, then by compression; `payload_size` is little-endian
(`30_encoding.md` R97, R98, R102; the kind before the compression, `41_decoder_commands.md` R163). -/
def Obligations.ChunkHeaderBytesDecode : Prop :=
  ∀ b0 b1 b2 b3 b4 b5 : Byte,
    decodeChunk [b0, b1, b2, b3, b4, b5] =
      if b0.toNat + 256 * b1.toNat ≠ 1 then .error .badKind
      else if b4 = 0 then .ok (.frameRaw (b2.toNat + 256 * b3.toNat) b5)
      else if b4 = 1 then .ok (.frameRle (b2.toNat + 256 * b3.toNat) b5)
      else .error .badCompression

/-! ## The step -/

/-- A step runs the decoded command on the state with the word taken from the command channel (`00_scope.md` R10). -/
def Obligations.StepRunsDecodedCommand : Prop :=
  ∀ (s : State) (w : Word48) (rest : List HostInput) (i : Instr),
    s.inputs = .command w :: rest → decodeCommand w = .ok i → step s = exec i { s with inputs := rest }

/-- A step that takes DNEXT in DEC runs the chunk at CURSOR, if it is complete and decodes (`41_decoder_commands.md`
R163). -/
def Obligations.StepRunsChunkAtCursor : Prop :=
  ∀ (s : State) (w : Word48) (rest : List HostInput) (i : Instr),
    s.inputs = .command w :: rest → decodeCommand w = .ok .dnext → s.mode = Mode.dec → chunkComplete s →
      decodeChunk (s.stream.bytes s.cursor.toNat 6) = .ok i → step s = exec i { s with inputs := rest }

/-- A word whose `op` is none of the twelve is refused BAD_OPCODE, and one with a nonzero unused field BAD_FIELD, in
every state, and nothing else changes (`30_encoding.md` R108, R109). -/
def Obligations.IllegalWordsAreRefused : Prop :=
  ∀ (s : State) (op c : Byte) (a b : Half) (rest : List HostInput),
    s.inputs = .command (commandWord op c a b) :: rest →
      (op.toNat ∉ [0x01, 0x02, 0x03, 0x04, 0x05, 0x06, 0x07, 0x10, 0x11, 0x12, 0x13, 0x20] →
        step s = .next (refusedWith { s with inputs := rest } 1))
      ∧ (op.toNat ∈ [0x01, 0x02, 0x04, 0x05, 0x06, 0x10, 0x11, 0x12, 0x13, 0x20] → c ≠ 0 →
        step s = .next (refusedWith { s with inputs := rest } 2))
      ∧ (op.toNat = 0x03 → 1 < c.toNat → step s = .next (refusedWith { s with inputs := rest } 2))
      ∧ (op.toNat ∈ [0x05, 0x10, 0x11, 0x12, 0x13] → a ≠ 0 ∨ b ≠ 0 →
        step s = .next (refusedWith { s with inputs := rest } 2))
      ∧ (op.toNat = 0x20 → a ≠ 0 → step s = .next (refusedWith { s with inputs := rest } 2))

/-- RST brings every register to its reset value, the grid is unobservable, and the commands that create one
zero-fill it (`10_state.md` R45,
`70_reset_and_hazards.md` R260). What the model adds, that the response channel is empty, is assumption log 6. -/
def Obligations.HardwareResetGivesResetValues : Prop :=
  ∀ (s : State) (rest : List HostInput), s.inputs = .rst :: rest →
    ∃ t, step s = .next t ∧ t.inputs = rest ∧ t.mode = Mode.unconf ∧ t.width = 0 ∧ t.height = 0 ∧ t.cursor = 0
      ∧ t.streamLen = 0 ∧ t.frameId = 0 ∧ t.fault = 0 ∧ t.faultAddr = 0 ∧ t.hdrFrameCount = 0
      ∧ (∀ n, n < 12 → exec (.rdsr n) t = .next { t with rsp := some (rsp48 0 0 0) })
      ∧ (∀ idx, exec (.grdb idx) t = .next (refusedWith t 3))
      ∧ (∀ x y, exec (.gget x y) t = .next (refusedWith t 3))
      ∧ ∀ i u, (∃ w h, i = .gnew w h) ∨ i = .dinit → exec i t = .next u → answerStatus u = some 0 →
          ∀ a, u.grid.read a = 0

/-- Where the host does nothing, nothing changes (`00_scope.md` R10: "Between two commands no state of the unit
changes"). -/
def Obligations.IdleStepChangesNothing : Prop :=
  ∀ s : State, s.inputs = [] → step s = .next s

/-- Every step keeps the invariants of `10_state.md` R46 (which the spec marks as its own inference), from every state
that meets them. -/
def Obligations.StepKeepsInvariant : Prop :=
  ∀ s t : State, s.Inv → step s = .next t → t.Inv

/-- The state after hardware reset meets the invariants, whatever the open parameters are (`10_state.md` R45, R46). -/
def Obligations.ResetMeetsInvariant : Prop :=
  State.reset.Inv ∧ ∀ p : Params, (State.resetWith p).Inv

/-- Every step answers a next state, and a step that takes a command word answers it with one response word whose
status is one of the four (`00_scope.md` R10, `30_encoding.md` R112, `70_reset_and_hazards.md` R268). -/
def Obligations.EveryCommandIsAnswered : Prop :=
  ∀ s : State, ∃ t, step s = .next t
    ∧ ∀ (w : Word48) (rest : List HostInput), s.inputs = .command w :: rest →
        t.inputs = rest ∧ ∃ n, answerStatus t = some n ∧ n ≤ 3

/-- A refused command changes no state whatever, and the next command is executed as if the refused one had never been
sent (`60_exceptions.md` R245). -/
def Obligations.RefusalChangesNothing : Prop :=
  ∀ (s t : State) (w : Word48) (rest : List HostInput),
    s.inputs = .command w :: rest → step s = .next t → answerStatus t = some 2 →
      (∃ code, 1 ≤ code ∧ code ≤ 7 ∧ t = refusedWith { s with inputs := rest } code)
        ∧ ∀ j : Instr, exec j t = exec j { s with inputs := rest }

/-- The legality table: an instruction not legal in the current STATE is refused BAD_STATE and changes nothing, and a
legal one is not refused for that reason (`30_encoding.md` R106 for the twelve commands; for the two chunk forms, which
R106 does not list, DNEXT's row is the model's choice, assumption log 8). -/
def Obligations.LegalityByState : Prop :=
  ∀ (i : Instr) (s : State),
    (s.mode ∉ legalModes i → exec i s = .next (refusedWith s 3))
      ∧ (s.mode ∈ legalModes i → ∀ t, exec i s = .next t → t.rsp ≠ some (rsp48 2 0 3))

/-- There is no return from a fault: in FAULTED every command but RDSR is refused, no event but hardware reset changes
anything but the two channels, and hardware reset leads to UNCONF with no fault, where DINIT is legal
(`60_exceptions.md` R242; that a chunk form run by itself is refused there too is the model's choice, assumption
log 8). -/
def Obligations.FaultedIsLeftOnlyByReset : Prop :=
  ∀ s : State, s.mode = Mode.faulted →
    (∀ i : Instr, (∀ n, i ≠ .rdsr n) → exec i s = .next (refusedWith s 3))
      ∧ (∀ t, step s = .next t → s.inputs.head? ≠ some .rst → t = { s with inputs := t.inputs, rsp := t.rsp })
      ∧ (∀ rest, s.inputs = .rst :: rest → ∃ t, step s = .next t ∧ t.mode = Mode.unconf ∧ t.fault = 0 ∧ t.faultAddr = 0
          ∧ t.mode ∈ legalModes .dinit)

/-- WIDTH and HEIGHT are written only by GNEW and DINIT, only in UNCONF, and writing them leaves UNCONF, so until the
next hardware reset they are written once (`10_state.md` R25). -/
def Obligations.DimensionsAreWrittenOnce : Prop :=
  ∀ (i : Instr) (s t : State), exec i s = .next t → t.width ≠ s.width ∨ t.height ≠ s.height →
    s.mode = Mode.unconf ∧ t.mode ≠ Mode.unconf ∧ ((∃ w h, i = .gnew w h) ∨ i = .dinit)

/-- All the movements of the cursor: DINIT and DREW set it to 128, an OK answer of DNEXT moves it by
`6 + payload_size` inside the buffer, a NONE answer sets it to STREAM_LEN, nothing else moves it, and only DREW moves it
back (`41_decoder_commands.md` R168, for states that meet the invariants of `10_state.md` R46 where it says so; that a
chunk form run by itself moves it as DNEXT does is the model's choice, assumption log 8). -/
def Obligations.CursorMovements : Prop :=
  ∀ (i : Instr) (s t : State), exec i s = .next t →
    (answerStatus t = some 0 → i = .dinit ∨ i = .drew → t.cursor = 128)
      ∧ (answerStatus t = some 0 → runsChunk i = true →
          t.cursor.toNat = s.cursor.toNat + 6 + chunkSize i s ∧ t.cursor.toNat ≤ s.streamLen.toNat)
      ∧ (answerStatus t = some 1 → t.cursor = s.streamLen)
      ∧ (answerStatus t ≠ some 1 →
          (answerStatus t = some 0 → i ≠ .dinit ∧ i ≠ .drew ∧ runsChunk i = false) → t.cursor = s.cursor)
      ∧ (s.Inv → i ≠ .drew → s.cursor.toNat ≤ t.cursor.toNat)

/-- Response statuses by instruction: NONE only from DNEXT, FAULT only from DINIT and DNEXT, and then with the fault's
code as data (`30_encoding.md` R113, `60_exceptions.md` R230; DNEXT stands here for the chunk forms too, assumption
log 8). -/
def Obligations.ResponseStatusByCommand : Prop :=
  ∀ (i : Instr) (s t : State), exec i s = .next t →
    (answerStatus t = some 1 → runsChunk i = true ∧ t.rsp = some (rsp48 1 0 0))
      ∧ (answerStatus t = some 3 → (runsChunk i = true ∨ i = .dinit) ∧ t.mode = Mode.faulted
          ∧ t.rsp = some (rsp48 3 0 t.fault.toNat))
      ∧ (t.mode = Mode.faulted → s.mode ≠ Mode.faulted → answerStatus t = some 3)

/-- No step writes the stream memory, its length input or the parameters (`20_memory.md` R61, `00_scope.md` R6; that the
model holds them in State is its own choice, assumption logs 1 and 3). -/
def Obligations.StreamAndParametersAreConstant : Prop :=
  ∀ s t : State, step s = .next t → t.stream = s.stream ∧ t.smLen = s.smLen ∧ t.params = s.params

/-- Only DINIT samples SM_LEN: a change of it has no effect on any other instruction (`70_reset_and_hazards.md`
R264). -/
def Obligations.OnlyDinitSamplesStreamLength : Prop :=
  ∀ (i : Instr) (s : State) (n : Word), i ≠ .dinit →
    exec i { s with smLen := n } = mapNext (fun t => { t with smLen := n }) (exec i s)

/-- All the transitions of STATE (`10_state.md` R40): an accepted GNEW, a successful DINIT, a faulting DINIT, a faulting
DNEXT, hardware reset; nothing else changes it. DNEXT stands here for the chunk forms too, which is the model's choice
(assumption log 8). -/
def Obligations.StateTransitions : Prop :=
  (∀ (i : Instr) (s t : State), exec i s = .next t →
      (answerStatus t = some 0 → (∃ w h, i = .gnew w h) → s.mode = Mode.unconf ∧ t.mode = Mode.grid)
        ∧ (answerStatus t = some 0 → i = .dinit → s.mode = Mode.unconf ∧ t.mode = Mode.dec)
        ∧ (answerStatus t = some 3 → t.mode = Mode.faulted
            ∧ (s.mode = Mode.unconf ∧ i = .dinit ∨ s.mode = Mode.dec ∧ runsChunk i = true))
        ∧ (answerStatus t ≠ some 3 → (answerStatus t = some 0 → (∀ w h, i ≠ .gnew w h) ∧ i ≠ .dinit) →
            t.mode = s.mode))
    ∧ (∀ s t : State, step s = .next t →
        (s.inputs = [] → t.mode = s.mode)
          ∧ (∀ rest, s.inputs = .rst :: rest → t.mode = Mode.unconf)
          ∧ ∀ w rest e, s.inputs = .command w :: rest → decodeCommand w = .error e → t.mode = s.mode)

/-- The background byte of the chunk at CURSOR changes nothing DNEXT does, nor a chunk form run by itself (assumption
log 8; `10_state.md` R35, `42_chunk_execution.md` R191), and `aux`, with BG, is 0 in every response (`30_encoding.md`
R112, R113). -/
def Obligations.BackgroundByteIsDropped : Prop :=
  (∀ (s : State) (b : Byte),
      exec .dnext { s with stream := s.stream.write (s.cursor.toNat + 5) b }
        = mapNext (fun t => { t with stream := s.stream.write (s.cursor.toNat + 5) b }) (exec .dnext s))
    ∧ (∀ (s : State) (n : Nat) (b b' : Byte),
        exec (.frameRaw n b) s = exec (.frameRaw n b') s ∧ exec (.frameRle n b) s = exec (.frameRle n b') s)
    ∧ ∀ (i : Instr) (s t : State), exec i s = .next t → answerAux t = some 0

/-- DINIT reads no stream byte above offset 23, the reserved region included (`30_encoding.md` R96, `20_memory.md`
R66). -/
def Obligations.ReservedHeaderBytesAreIgnored : Prop :=
  ∀ (s : State) (a : Nat) (b : Byte), 24 ≤ a →
    exec .dinit { s with stream := s.stream.write a b }
      = mapNext (fun t => { t with stream := s.stream.write a b }) (exec .dinit s)

/-! ## Grid commands -/

/-- `GNEW` (`40_grid_commands.md` R132): its word and BAD_FIELD, the grid it creates, a grid of no cells
included, the refusals. -/
def Obligations.GnewCreatesGrid : Prop :=
  (∀ a b : Half, decodeCommand (commandWord 0x01 0 a b) = .ok (.gnew a.toInt b.toInt))
    ∧ (∀ (c : Byte) (a b : Half), c ≠ 0 → decodeCommand (commandWord 0x01 c a b) = .error .badField)
    ∧ (∀ (s : State) (w h : Int), s.mode = Mode.unconf → 0 ≤ w → w ≤ 32767 → 0 ≤ h → h ≤ 32767 →
        (w.toNat + 7) / 8 * h.toNat ≤ s.params.gridCapBytes.val →
        exec (.gnew w h) s = .next
          { s with
            width := BitVec.ofNat 16 w.toNat
            height := BitVec.ofNat 16 h.toNat
            grid := []
            mode := Mode.grid
            rsp := some (rsp48 0 0 0) })
    ∧ (∀ (s : State) (w h : Int), s.mode = Mode.unconf →
        (w < 0 ∨ h < 0 ∨ s.params.gridCapBytes.val < (w.toNat + 7) / 8 * h.toNat) →
        exec (.gnew w h) s = .next (refusedWith s 7))
    ∧ (∀ (s : State) (w h : Int), s.mode = Mode.unconf → 0 ≤ w → w ≤ 32767 → 0 ≤ h → h ≤ 32767 → w = 0 ∨ h = 0 →
        ∃ t, exec (.gnew w h) s = .next t ∧ t.mode = Mode.grid
          ∧ (∃ u, exec .gclr t = .next u ∧ answerStatus u = some 0)
          ∧ (∀ (x y : Int) (v : Bool), exec (.gget x y) t = .next (refusedWith t 6)
              ∧ exec (.gset x y v) t = .next (refusedWith t 6) ∧ exec (.gflip x y) t = .next (refusedWith t 6))
          ∧ ∀ (idx : Nat) (data : Byte), exec (.grdb idx) t = .next (refusedWith t 4)
              ∧ exec (.gwrb idx data) t = .next (refusedWith t 4))
    ∧ ∀ (s : State) (w h : Int), s.mode ≠ Mode.unconf → exec (.gnew w h) s = .next (refusedWith s 3)

/-- `GGET` (`40_grid_commands.md` R133): its word and BAD_FIELD, the wrapped cell it answers, its period, the refusals.
-/
def Obligations.GgetReadsCell : Prop :=
  (∀ a b : Half, decodeCommand (commandWord 0x02 0 a b) = .ok (.gget a.toInt b.toInt))
    ∧ (∀ (c : Byte) (a b : Half), c ≠ 0 → decodeCommand (commandWord 0x02 c a b) = .error .badField)
    ∧ (∀ (s : State) (x y : Int), s.mode = Mode.grid ∨ s.mode = Mode.dec → 0 < s.width.toNat → 0 < s.height.toNat →
        exec (.gget x y) s = .next { s with rsp := some (rsp48 0 0 (cellBit s (colOf s x) (rowOf s y)).toNat) }
          ∧ colOf s x < s.width.toNat ∧ rowOf s y < s.height.toNat)
    ∧ (∀ (s : State) (x y k m : Int),
        exec (.gget (x + k * s.width.toNat) (y + m * s.height.toNat)) s = exec (.gget x y) s)
    ∧ (∀ (s : State) (x y : Int), s.mode = Mode.grid ∨ s.mode = Mode.dec → s.width.toNat = 0 ∨ s.height.toNat = 0 →
        exec (.gget x y) s = .next (refusedWith s 6))
    ∧ ∀ (s : State) (x y : Int), s.mode ≠ Mode.grid → s.mode ≠ Mode.dec → exec (.gget x y) s = .next (refusedWith s 3)

/-- `GSET` (`40_grid_commands.md` R134): its word and BAD_FIELD, the one bit it writes, the old bit it answers, the
refusals. -/
def Obligations.GsetWritesCell : Prop :=
  (∀ (a b : Half) (v : Bool),
      decodeCommand (commandWord 0x03 (if v then 1 else 0) a b) = .ok (.gset a.toInt b.toInt v))
    ∧ (∀ (c : Byte) (a b : Half), 1 < c.toNat → decodeCommand (commandWord 0x03 c a b) = .error .badField)
    ∧ (∀ (s : State) (x y : Int) (v : Bool), s.mode = Mode.grid → 0 < s.width.toNat → 0 < s.height.toNat →
        ∃ t, exec (.gset x y v) s = .next t
          ∧ t = { s with grid := t.grid, rsp := some (rsp48 0 0 (cellBit s (colOf s x) (rowOf s y)).toNat) }
          ∧ (∀ a k, (t.grid.read a).getLsbD k
              = if a = cellByte s x y ∧ k = colOf s x % 8 then v else (s.grid.read a).getLsbD k)
          ∧ ∀ a, a ≠ cellByte s x y → t.grid.read a = s.grid.read a)
    ∧ (∀ (s : State) (x y : Int) (v : Bool), s.mode = Mode.grid → s.width.toNat = 0 ∨ s.height.toNat = 0 →
        exec (.gset x y v) s = .next (refusedWith s 6))
    ∧ ∀ (s : State) (x y : Int) (v : Bool), s.mode ≠ Mode.grid → exec (.gset x y v) s = .next (refusedWith s 3)

/-- `GFLIP` (`40_grid_commands.md` R135): its word and BAD_FIELD, the one bit it toggles, the old bit it answers, the
refusals. -/
def Obligations.GflipTogglesCell : Prop :=
  (∀ a b : Half, decodeCommand (commandWord 0x04 0 a b) = .ok (.gflip a.toInt b.toInt))
    ∧ (∀ (c : Byte) (a b : Half), c ≠ 0 → decodeCommand (commandWord 0x04 c a b) = .error .badField)
    ∧ (∀ (s : State) (x y : Int), s.mode = Mode.grid → 0 < s.width.toNat → 0 < s.height.toNat →
        ∃ t, exec (.gflip x y) s = .next t
          ∧ t = { s with grid := t.grid, rsp := some (rsp48 0 0 (cellBit s (colOf s x) (rowOf s y)).toNat) }
          ∧ (∀ a k, (t.grid.read a).getLsbD k
              = if a = cellByte s x y ∧ k = colOf s x % 8 then !cellBit s (colOf s x) (rowOf s y)
                else (s.grid.read a).getLsbD k)
          ∧ ∀ a, a ≠ cellByte s x y → t.grid.read a = s.grid.read a)
    ∧ (∀ (s : State) (x y : Int), s.mode = Mode.grid → s.width.toNat = 0 ∨ s.height.toNat = 0 →
        exec (.gflip x y) s = .next (refusedWith s 6))
    ∧ ∀ (s : State) (x y : Int), s.mode ≠ Mode.grid → exec (.gflip x y) s = .next (refusedWith s 3)

/-- `GCLR` (`40_grid_commands.md` R136): its word and BAD_FIELD, the zero-filled grid, the refusal. -/
def Obligations.GclrClearsGrid : Prop :=
  decodeCommand 0x050000000000 = .ok .gclr
    ∧ (∀ (c : Byte) (a b : Half), c ≠ 0 ∨ a ≠ 0 ∨ b ≠ 0 → decodeCommand (commandWord 0x05 c a b) = .error .badField)
    ∧ (∀ s : State, s.mode = Mode.grid →
        ∃ t, exec .gclr s = .next t ∧ t = { s with grid := t.grid, rsp := some (rsp48 0 0 0) }
          ∧ ∀ a, t.grid.read a = 0)
    ∧ ∀ s : State, s.mode ≠ Mode.grid → exec .gclr s = .next (refusedWith s 3)

/-- `GRDB` (`40_grid_commands.md` R137): its word and BAD_FIELD, the byte it answers, the refusals. -/
def Obligations.GrdbReadsByte : Prop :=
  (∀ a b : Half, decodeCommand (commandWord 0x06 0 a b) = .ok (.grdb (a.toNat * 65536 + b.toNat)))
    ∧ (∀ (c : Byte) (a b : Half), c ≠ 0 → decodeCommand (commandWord 0x06 c a b) = .error .badField)
    ∧ (∀ (s : State) (idx : Nat), s.mode = Mode.grid ∨ s.mode = Mode.dec → idx < s.gridBytes →
        exec (.grdb idx) s = .next { s with rsp := some (rsp48 0 0 (s.grid.read idx).toNat) })
    ∧ (∀ (s : State) (idx : Nat), s.mode = Mode.grid ∨ s.mode = Mode.dec → s.gridBytes ≤ idx →
        exec (.grdb idx) s = .next (refusedWith s 4))
    ∧ ∀ (s : State) (idx : Nat), s.mode ≠ Mode.grid → s.mode ≠ Mode.dec → exec (.grdb idx) s = .next (refusedWith s 3)

/-- `GWRB` (`40_grid_commands.md` R138): its word, the byte it writes and no other, the cells that byte holds, the
refusals. -/
def Obligations.GwrbWritesByte : Prop :=
  (∀ (c : Byte) (a b : Half), decodeCommand (commandWord 0x07 c a b) = .ok (.gwrb (a.toNat * 65536 + b.toNat) c))
    ∧ (∀ (s : State) (idx : Nat) (data : Byte), s.mode = Mode.grid → idx < s.gridBytes →
        ∃ t, exec (.gwrb idx data) s = .next t ∧ t = { s with grid := t.grid, rsp := some (rsp48 0 0 0) }
          ∧ (∀ a, t.grid.read a = if a = idx then data else s.grid.read a)
          ∧ ∀ k, k < 8 → 8 * (idx % s.stride) + k < s.width.toNat →
              cellBit t (8 * (idx % s.stride) + k) (idx / s.stride) = data.getLsbD k)
    ∧ (∀ (s : State) (idx : Nat) (data : Byte), s.mode = Mode.grid → s.gridBytes ≤ idx →
        exec (.gwrb idx data) s = .next (refusedWith s 4))
    ∧ ∀ (s : State) (idx : Nat) (data : Byte), s.mode ≠ Mode.grid → exec (.gwrb idx data) s = .next (refusedWith s 3)

/-- The coordinates the machine wraps to are canonical and differ from the operands by whole widths and heights
(`40_grid_commands.md` R131). -/
def Obligations.WrappingIsEuclidean : Prop :=
  ∀ (s : State) (x y : Int), 0 < s.width.toNat → 0 < s.height.toNat →
    s.wrapX x < s.width.toNat ∧ s.wrapY y < s.height.toNat
      ∧ (∃ k : Int, x = k * s.width.toNat + s.wrapX x) ∧ ∃ k : Int, y = k * s.height.toNat + s.wrapY y

/-- The byte a wrapped cell lies in is below GRID_BYTES, hence below 134,213,632 for legal dimensions
(`40_grid_commands.md` R139, which the spec marks as its own inference). -/
def Obligations.CellsLieInTheBuffer : Prop :=
  ∀ (s : State) (x y : Int), 0 < s.width.toNat → 0 < s.height.toNat →
    byteIndex s.stride (s.wrapX x) (s.wrapY y) < s.gridBytes
      ∧ (s.width.toNat ≤ 32767 → s.height.toNat ≤ 32767 → s.gridBytes ≤ 134213632)

/-- After GSET a GGET of the same wrapped cell answers the value set, and of another cell what it would have answered
before (`40_grid_commands.md` R141 (1), an inference of the spec). -/
def Obligations.GetAfterSet : Prop :=
  ∀ (s : State) (x y x' y' : Int) (v : Bool), s.mode = Mode.grid → 0 < s.width.toNat → 0 < s.height.toNat →
    ∃ t, exec (.gset x y v) s = .next t
      ∧ exec (.gget x' y') t = .next
          { t with rsp := some (rsp48 0 0
              (if colOf s x' = colOf s x ∧ rowOf s y' = rowOf s y then v
               else cellBit s (colOf s x') (rowOf s y')).toNat) }

/-- Two GFLIPs of one cell restore the buffer, as data; the second answers the complement of the first
(`40_grid_commands.md` R135, R141 (2)). -/
def Obligations.FlipTwiceRestoresBuffer : Prop :=
  ∀ (s : State) (x y : Int), s.mode = Mode.grid → 0 < s.width.toNat → 0 < s.height.toNat → Memory.wf s.grid →
    ∃ t, exec (.gflip x y) s = .next t
      ∧ exec (.gflip x y) t
          = .next { s with rsp := some (rsp48 0 0 (!cellBit s (colOf s x) (rowOf s y)).toNat) }

/-- GGET answers the bit of the byte that GRDB of the cell's byte index answers (`40_grid_commands.md` R141 (4), an
inference of the spec). -/
def Obligations.GetIsABitOfTheByteRead : Prop :=
  ∀ (s : State) (x y : Int), s.mode = Mode.grid ∨ s.mode = Mode.dec → 0 < s.width.toNat → 0 < s.height.toNat →
    ∃ b : Byte,
      exec (.grdb (colOf s x / 8 + rowOf s y * s.stride)) s = .next { s with rsp := some (rsp48 0 0 b.toNat) }
        ∧ exec (.gget x y) s = .next { s with rsp := some (rsp48 0 0 (b.getLsbD (colOf s x % 8)).toNat) }

/-- No grid command touches the decoder's registers or the fault registers, and none but GNEW changes STATE, WIDTH or
HEIGHT (`40_grid_commands.md` R141 (6), an inference of the spec). -/
def Obligations.GridCommandsLeaveTheDecoder : Prop :=
  ∀ (i : Instr) (s t : State), isGridCommand i = true → exec i s = .next t →
    t = { s with grid := t.grid, rsp := t.rsp, mode := t.mode, width := t.width, height := t.height }
      ∧ ((∀ w h, i ≠ .gnew w h) → t = { s with grid := t.grid, rsp := t.rsp })

/-- Padding bits, bits of a row's last byte that belong to no cell: GSET and GFLIP never change them, and a run-length
frame leaves them 0 (`10_state.md` R24). -/
def Obligations.PaddingBitsAreNoCells : Prop :=
  ∀ (s t : State) (y k : Nat), y < s.height.toNat → k < 8 → s.width.toNat ≤ 8 * (s.stride - 1) + k →
    (∀ x' y' v, exec (.gset x' y' v) s = .next t →
      (t.grid.read (s.stride - 1 + y * s.stride)).getLsbD k = (s.grid.read (s.stride - 1 + y * s.stride)).getLsbD k)
    ∧ (∀ x' y', exec (.gflip x' y') s = .next t →
      (t.grid.read (s.stride - 1 + y * s.stride)).getLsbD k = (s.grid.read (s.stride - 1 + y * s.stride)).getLsbD k)
    ∧ (∀ n b, exec (.frameRle n b) s = .next t → answerStatus t = some 0 →
      (t.grid.read (s.stride - 1 + y * s.stride)).getLsbD k = false)

/-! ## The decoder -/

/-- `MemRead`: little-endian inside the buffer, undefined outside it (`20_memory.md` R62). -/
def Obligations.MemReadIsLittleEndian : Prop :=
  ∀ (s : State) (addr : Nat),
    (addr + 1 ≤ s.streamLen.toNat → (s.memBytes addr 1).map leNat = some (mem1 s addr))
      ∧ (addr + 2 ≤ s.streamLen.toNat → (s.memBytes addr 2).map leNat = some (mem2 s addr))
      ∧ (addr + 4 ≤ s.streamLen.toNat → (s.memBytes addr 4).map leNat = some (mem4 s addr))
      ∧ ∀ n, s.streamLen.toNat < addr + n → s.memBytes addr n = none

/-- `DINIT` (`41_decoder_commands.md` R161): its word and BAD_FIELD, the decoder it constructs, the five faults in the
order tested, the refusal. -/
def Obligations.DinitConstructsDecoder : Prop :=
  decodeCommand 0x100000000000 = .ok .dinit
    ∧ (∀ (c : Byte) (a b : Half), c ≠ 0 ∨ a ≠ 0 ∨ b ≠ 0 → decodeCommand (commandWord 0x10 c a b) = .error .badField)
    ∧ (∀ s : State, s.mode = Mode.unconf → 128 ≤ s.smLen.toNat →
        (∀ k, k < 12 → s.stream.read k = s.params.magic.getD k 0) → mem4 s 12 = s.params.supportedVersion.toNat →
        mem2 s 20 ≤ 32767 → mem2 s 22 ≤ 32767 →
        (mem2 s 20 + 7) / 8 * mem2 s 22 ≤ s.params.gridCapBytes.val →
        ∃ t, exec .dinit s = .next t
          ∧ t = { s with
              streamLen := s.smLen
              width := BitVec.ofNat 16 (mem2 s 20)
              height := BitVec.ofNat 16 (mem2 s 22)
              hdrFrameCount := BitVec.ofNat 32 (mem4 s 16)
              grid := []
              cursor := 128
              frameId := 0
              mode := Mode.dec
              rsp := some (rsp48 0 0 0) }
          ∧ (t.finished = true ↔ s.smLen = 128))
    ∧ (∀ s : State, s.mode = Mode.unconf → s.smLen.toNat < 128 →
        exec .dinit s = .next (faultedWith { s with streamLen := s.smLen } 1 0))
    ∧ (∀ s : State, s.mode = Mode.unconf → 128 ≤ s.smLen.toNat →
        ((∃ k, k < 12 ∧ s.stream.read k ≠ s.params.magic.getD k 0) →
          exec .dinit s = .next (faultedWith { s with streamLen := s.smLen } 2 0))
        ∧ ((∀ k, k < 12 → s.stream.read k = s.params.magic.getD k 0) →
            (mem4 s 12 ≠ s.params.supportedVersion.toNat →
              exec .dinit s = .next (faultedWith { s with streamLen := s.smLen } 3 0))
            ∧ (mem4 s 12 = s.params.supportedVersion.toNat →
                (32767 < mem2 s 20 ∨ 32767 < mem2 s 22 →
                  exec .dinit s = .next (faultedWith { s with streamLen := s.smLen } 4 0))
                ∧ (mem2 s 20 ≤ 32767 → mem2 s 22 ≤ 32767 →
                    s.params.gridCapBytes.val < (mem2 s 20 + 7) / 8 * mem2 s 22 →
                    exec .dinit s = .next (faultedWith { s with streamLen := s.smLen } 5 0)))))
    ∧ ∀ s : State, s.mode ≠ Mode.unconf → exec .dinit s = .next (refusedWith s 3)

/-- End of stream: where the chunk at CURSOR does not lie inside the buffer, DNEXT answers NONE, pins CURSOR and changes
nothing else; STATE stays DEC, so DREW still works (`60_exceptions.md` R244). -/
def Obligations.EndOfStreamIsAnAnswer : Prop :=
  ∀ s : State, s.mode = Mode.dec →
    s.streamLen.toNat < s.cursor.toNat + 6
      ∨ s.streamLen.toNat < s.cursor.toNat + 6 + mem2 s (s.cursor.toNat + 2) →
    ∃ t, exec .dnext s = .next t ∧ t = { s with cursor := s.streamLen, rsp := some (rsp48 1 0 0) }
      ∧ t.mode ∈ legalModes .drew

/-- `DNEXT` (`41_decoder_commands.md` R163): its word and BAD_FIELD; end of stream before every fault; BAD_CHUNK_KIND
before BAD_COMPRESSION; the form the header declares, executed; what an OK answer leaves; the refusal. After a fault
the grid is unspecified (assumption log 5). -/
def Obligations.DnextFetchesTheChunk : Prop :=
  decodeCommand 0x110000000000 = .ok .dnext
    ∧ (∀ (c : Byte) (a b : Half), c ≠ 0 ∨ a ≠ 0 ∨ b ≠ 0 → decodeCommand (commandWord 0x11 c a b) = .error .badField)
    ∧ (∀ s : State, s.mode = Mode.dec → ¬ chunkComplete s →
        exec .dnext s = .next { s with cursor := s.streamLen, rsp := some (rsp48 1 0 0) })
    ∧ (∀ s : State, s.mode = Mode.dec → chunkComplete s →
        (mem2 s s.cursor.toNat ≠ 1 →
          ∃ g n, exec .dnext s = .next (faultedWith { s with grid := g, freeCount := n } 6 s.cursor))
        ∧ (mem2 s s.cursor.toNat = 1 → 2 ≤ mem1 s (s.cursor.toNat + 4) →
          ∃ g n, exec .dnext s = .next (faultedWith { s with grid := g, freeCount := n } 7 s.cursor))
        ∧ (mem2 s s.cursor.toNat = 1 → mem1 s (s.cursor.toNat + 4) = 0 →
          exec .dnext s
            = exec (.frameRaw (mem2 s (s.cursor.toNat + 2)) (s.stream.read (s.cursor.toNat + 5))) s)
        ∧ (mem2 s s.cursor.toNat = 1 → mem1 s (s.cursor.toNat + 4) = 1 →
          exec .dnext s
            = exec (.frameRle (mem2 s (s.cursor.toNat + 2)) (s.stream.read (s.cursor.toNat + 5))) s))
    ∧ (∀ s t : State, exec .dnext s = .next t → answerStatus t = some 0 →
        s.mode = Mode.dec ∧ chunkComplete s ∧ mem2 s s.cursor.toNat = 1
          ∧ t = { s with
              grid := t.grid
              cursor := BitVec.ofNat 32 (s.cursor.toNat + 6 + mem2 s (s.cursor.toNat + 2))
              frameId := s.frameId + 1
              rsp := some (rsp48 0 0 (s.frameId + 1).toNat) })
    ∧ ∀ s : State, s.mode ≠ Mode.dec → exec .dnext s = .next (refusedWith s 3)

/-- Where the chunk at CURSOR is a complete frame whose payload suits the grid, DNEXT decodes it: CURSOR past the chunk,
FRAME_ID counted and answered, and nothing else but the grid changed (`41_decoder_commands.md` R163). -/
def Obligations.DnextDecodesAFrame : Prop :=
  ∀ s : State, s.mode = Mode.dec → chunkComplete s → mem2 s s.cursor.toNat = 1 →
    (mem1 s (s.cursor.toNat + 4) = 0 ∧ mem2 s (s.cursor.toNat + 2) = s.gridBytes
      ∨ mem1 s (s.cursor.toNat + 4) = 1
        ∧ runTotal (s.stream.bytes (s.cursor.toNat + 6) (mem2 s (s.cursor.toNat + 2)))
            ≤ s.width.toNat * s.height.toNat) →
    ∃ t, exec .dnext s = .next t
      ∧ t = { s with
          grid := t.grid
          cursor := BitVec.ofNat 32 (s.cursor.toNat + 6 + mem2 s (s.cursor.toNat + 2))
          frameId := s.frameId + 1
          rsp := some (rsp48 0 0 (s.frameId + 1).toNat) }

/-- `FRAME.RAW` at CURSOR: the payload becomes the buffer byte for byte, or RAW_LEN_MISMATCH is taken
(`42_chunk_execution.md` R194). That the form also moves CURSOR, counts FRAME_ID and answers is the end of
`41_decoder_commands.md` R163 made part of it (assumption log 8); the grid after the fault is the free value of assumption
log 5 (`60_exceptions.md` R240). -/
def Obligations.FrameRawCopiesPayload : Prop :=
  (∀ (s : State) (n : Nat) (b : Byte), s.mode = Mode.dec → s.cursor.toNat + 6 + n ≤ s.streamLen.toNat →
      n = s.gridBytes →
      ∃ t, exec (.frameRaw n b) s = .next t
        ∧ t = { s with
            grid := t.grid
            cursor := BitVec.ofNat 32 (s.cursor.toNat + 6 + n)
            frameId := s.frameId + 1
            rsp := some (rsp48 0 0 (s.frameId + 1).toNat) }
        ∧ ∀ i, i < s.gridBytes → t.grid.read i = s.stream.read (s.cursor.toNat + 6 + i))
    ∧ (∀ (s : State) (n : Nat) (b : Byte), s.mode = Mode.dec → s.cursor.toNat + 6 + n ≤ s.streamLen.toNat →
        n ≠ s.gridBytes →
        ∃ g m, exec (.frameRaw n b) s = .next (faultedWith { s with grid := g, freeCount := m } 8 s.cursor))
    ∧ ∀ lo hi b : Byte,
        decodeChunk [0x01, 0x00, lo, hi, 0x00, b] = .ok (.frameRaw (lo.toNat + 256 * hi.toNat) b)

/-- `FRAME.RLE` (`42_chunk_execution.md` R196) at CURSOR, where the runs fit: the cells are the runs in scan order,
unset first, cells after the last run unset, and every bit that is no cell is 0. That the form also moves CURSOR, counts
FRAME_ID and answers is the end of `41_decoder_commands.md` R163 made part of it (assumption log 8). -/
def Obligations.FrameRleDrawsRuns : Prop :=
  ∀ (s : State) (n : Nat) (b : Byte), s.mode = Mode.dec → s.cursor.toNat + 6 + n ≤ s.streamLen.toNat →
    runTotal (s.stream.bytes (s.cursor.toNat + 6) n) ≤ s.width.toNat * s.height.toNat →
    ∃ t, exec (.frameRle n b) s = .next t
      ∧ t = { s with
          grid := t.grid
          cursor := BitVec.ofNat 32 (s.cursor.toNat + 6 + n)
          frameId := s.frameId + 1
          rsp := some (rsp48 0 0 (s.frameId + 1).toNat) }
      ∧ (∀ x y, x < s.width.toNat → y < s.height.toNat →
          cellBit t x y
            = (expandRuns false (s.stream.bytes (s.cursor.toNat + 6) n)).getD (y * s.width.toNat + x) false)
      ∧ ∀ a k, (∀ x y, x < s.width.toNat → y < s.height.toNat → ¬ (a = x / 8 + y * s.stride ∧ k = x % 8)) →
          (t.grid.read a).getLsbD k = false

/-- `FRAME.RLE` whose runs pass the last cell raises RLE_OVERRUN at the chunk's offset (`60_exceptions.md` R238,
`42_chunk_execution.md` R196; run by itself at CURSOR, assumption log 8; the grid is the free value of assumption
log 5). -/
def Obligations.FrameRleOverrunFaults : Prop :=
  ∀ (s : State) (n : Nat) (b : Byte), s.mode = Mode.dec → s.cursor.toNat + 6 + n ≤ s.streamLen.toNat →
    s.width.toNat * s.height.toNat < runTotal (s.stream.bytes (s.cursor.toNat + 6) n) →
    ∃ g m, exec (.frameRle n b) s = .next (faultedWith { s with grid := g, freeCount := m } 9 s.cursor)

/-- A chunk form run by itself whose payload does not fit the buffer is end of stream, as in DNEXT (the model's choice,
assumption log 8, after `41_decoder_commands.md` R163). -/
def Obligations.ChunkFormsPastTheEnd : Prop :=
  ∀ (s : State) (n : Nat) (b : Byte), s.mode = Mode.dec → s.streamLen.toNat < s.cursor.toNat + 6 + n →
    exec (.frameRaw n b) s = .next { s with cursor := s.streamLen, rsp := some (rsp48 1 0 0) }
      ∧ exec (.frameRle n b) s = .next { s with cursor := s.streamLen, rsp := some (rsp48 1 0 0) }

/-- A fault taken by DNEXT: FAULT, FAULT_ADDR = CURSOR, STATE and the response are written, the grid is unspecified
(assumption log 5), all else keeps its value (`60_exceptions.md` R240); so too by a chunk form run by itself
(assumption log 8). -/
def Obligations.ChunkFaultsArePrecise : Prop :=
  ∀ (i : Instr) (s t : State), runsChunk i = true → s.mode = Mode.dec → exec i s = .next t → t.mode = Mode.faulted →
    t = { s with
        mode := Mode.faulted
        fault := t.fault
        faultAddr := s.cursor
        rsp := some (rsp48 3 0 t.fault.toNat)
        grid := t.grid
        freeCount := t.freeCount }
      ∧ 6 ≤ t.fault.toNat ∧ t.fault.toNat ≤ 9

/-- Exhaustion: after a NONE answer the next DNEXT answers NONE again and changes nothing (`41_decoder_commands.md`
R164 (1), an inference of the spec). -/
def Obligations.ExhaustionIsForEver : Prop :=
  ∀ s t : State, exec .dnext s = .next t → answerStatus t = some 1 → exec .dnext t = .next t

/-- Frame independence: the state after an OK answer of DNEXT does not depend on the grid's earlier contents
(`41_decoder_commands.md` R164 (4), an inference of the spec). -/
def Obligations.FrameIgnoresEarlierGrid : Prop :=
  ∀ (s t : State) (g : Memory), exec .dnext s = .next t → answerStatus t = some 0 →
    exec .dnext { s with grid := g } = .next t

/-- Sequential ids: the k-th OK answer after DINIT or DREW carries k (`41_decoder_commands.md` R164 (3), an inference of
the spec). -/
def Obligations.FrameIdsAreSequential : Prop :=
  ∀ (k : Nat) (s t : State), s.frameId = 0 → 0 < k → k < 4294967296 → okDnexts k s = some t →
    t.rsp = some (rsp48 0 0 k) ∧ t.frameId.toNat = k

/-- Replay: after any DNEXTs that left the unit in DEC, DREW gives exactly the state the successful DINIT left
(`10_state.md` R41, `41_decoder_commands.md` R167). -/
def Obligations.RewindRestoresConstruction : Prop :=
  ∀ (s t u : State) (n : Nat), s.mode = Mode.unconf → exec .dinit s = .next t → t.mode = Mode.dec →
    dnexts n t = some u → u.mode = Mode.dec → exec .drew u = .next t

/-- From DINIT or DREW, DRAIN ends with an answer NONE or FAULT within `(STREAM_LEN - 128) div 6 + 1` commands
(`70_reset_and_hazards.md` R269, an inference of the spec), and REPLAY from wherever DRAIN left the unit in DEC ends
with the same state (`41_decoder_commands.md` R167, likewise). -/
def Obligations.DrainingTerminates : Prop :=
  ∀ s : State, s.mode = Mode.dec → s.cursor = 128 →
    ∃ t, drain ((s.streamLen.toNat - 128) / 6 + 1) s = some t ∧ (answerStatus t = some 1 ∨ answerStatus t = some 3)
      ∧ (t.mode = Mode.dec → s.frameId = 0 → s.grid = [] → replay ((s.streamLen.toNat - 128) / 6 + 1) t = some t)

/-- `DFIN` (`41_decoder_commands.md` R165): its word and BAD_FIELD, the answer, the refusal. -/
def Obligations.DfinReportsTheEnd : Prop :=
  decodeCommand 0x120000000000 = .ok .dfin
    ∧ (∀ (c : Byte) (a b : Half), c ≠ 0 ∨ a ≠ 0 ∨ b ≠ 0 → decodeCommand (commandWord 0x12 c a b) = .error .badField)
    ∧ (∀ s : State, s.mode = Mode.dec →
        exec .dfin s = .next { s with rsp := some (rsp48 0 0 (if s.cursor = s.streamLen then 1 else 0)) })
    ∧ ∀ s : State, s.mode ≠ Mode.dec → exec .dfin s = .next (refusedWith s 3)

/-- `DREW` (`41_decoder_commands.md` R166): its word and BAD_FIELD, the rewound decoder, the refusal. -/
def Obligations.DrewRewinds : Prop :=
  decodeCommand 0x130000000000 = .ok .drew
    ∧ (∀ (c : Byte) (a b : Half), c ≠ 0 ∨ a ≠ 0 ∨ b ≠ 0 → decodeCommand (commandWord 0x13 c a b) = .error .badField)
    ∧ (∀ s : State, s.mode = Mode.dec →
        ∃ t, exec .drew s = .next t ∧ t = { s with cursor := 128, grid := [], frameId := 0, rsp := some (rsp48 0 0 0) }
          ∧ (t.finished = true ↔ s.streamLen = 128))
    ∧ ∀ s : State, s.mode ≠ Mode.dec → exec .drew s = .next (refusedWith s 3)

/-- `RDSR` (`41_decoder_commands.md` R169): its word and BAD_FIELD, the twelve status registers of `10_state.md` R30,
BAD_SREG above 11; in every STATE. -/
def Obligations.RdsrReadsStatusRegisters : Prop :=
  (∀ b : Half, decodeCommand (commandWord 0x20 0 0 b) = .ok (.rdsr b.toNat))
    ∧ (∀ (c : Byte) (a b : Half), c ≠ 0 ∨ a ≠ 0 → decodeCommand (commandWord 0x20 c a b) = .error .badField)
    ∧ (∀ s : State,
        let reads := fun (n v : Nat) => exec (.rdsr n) s = .next { s with rsp := some (rsp48 0 0 v) }
        reads 0 (match s.mode with | .unconf => 0 | .grid => 1 | .dec => 2 | .faulted => 3)
          ∧ reads 1 s.width.toNat ∧ reads 2 s.height.toNat
          ∧ reads 3 ((s.width.toNat + 7) / 8)
          ∧ reads 4 ((s.width.toNat + 7) / 8 * s.height.toNat)
          ∧ reads 5 s.cursor.toNat ∧ reads 6 s.streamLen.toNat ∧ reads 7 s.frameId.toNat ∧ reads 8 s.fault.toNat
          ∧ reads 9 s.faultAddr.toNat ∧ reads 10 s.hdrFrameCount.toNat
          ∧ reads 11 (if s.mode = Mode.dec ∧ s.cursor = s.streamLen then 1 else 0))
    ∧ ∀ (s : State) (n : Nat), 11 < n → exec (.rdsr n) s = .next (refusedWith s 5)

/-! ## The round trip -/

/-- `exec_rle` of the runs of a grid whose runs are at most 255 cells long gives its cells back
(`42_chunk_execution.md` R200, `43_reference_encoder.md` R213). -/
def Obligations.RunsRoundTrip : Prop :=
  ∀ f : HostFrame, f.runsFit →
    ∃ g, rleFrame f.width f.height f.runs = .ok g
      ∧ ∀ x y, x < f.width → y < f.height → readCell (strideOf f.width) g x y = f.cell x y

/-- The round trip through the reference encoder, with its empty-stream and exhaustion properties
(`43_reference_encoder.md` R217, an inference of the spec). -/
def Obligations.StreamRoundTrip : Prop :=
  ∀ (p : Params) (frames : List HostFrame) (bytes : List Byte),
    Params.encodeFrames p frames = some bytes → bytes.length < 4294967296 →
    (∀ f ∈ frames, gridBytesOf f.width f.height ≤ p.gridCapBytes.val) →
    (∀ f ∈ frames, f.runsFit ∨ f.chunk = f.raw) →
    ∃ t, exec .dinit ((State.resetWith p).attach bytes) = .next t ∧ t.mode = Mode.dec ∧ answerStatus t = some 0
      ∧ (∀ (k : Nat) (f : HostFrame), frames[k]? = some f →
          ∃ u, okDnexts (k + 1) t = some u ∧ u.rsp = some (rsp48 0 0 (k + 1))
            ∧ ∀ x y, x < f.width → y < f.height → cellBit u x y = f.cell x y)
      ∧ ∃ u, okDnexts frames.length t = some u ∧ u.finished = true
          ∧ exec .dnext u = .next { u with rsp := some (rsp48 1 0 0) }

/-! ## A cleared grid -/

/-- After an accepted GCLR or GNEW every GGET and every GRDB answers 0 (`40_grid_commands.md` R141 (3), an inference of
the spec), and reading changes nothing but the response (R141 (5), likewise). -/
def Obligations.ClearedGridReadsZero : Prop :=
  ∀ (i : Instr) (s t : State), i = .gclr ∨ (∃ w h, i = .gnew w h) → exec i s = .next t → answerStatus t = some 0 →
    (0 < t.width.toNat → 0 < t.height.toNat →
        ∀ x y : Int, exec (.gget x y) t = .next { t with rsp := some (rsp48 0 0 0) })
      ∧ ∀ idx : Nat, idx < t.gridBytes → exec (.grdb idx) t = .next { t with rsp := some (rsp48 0 0 0) }
end

