-- ==== Sys2Proof/Laws/Memory.lean ====
section
/-! SUPPORT. The laws of a byte memory: read after write, and that every operation keeps the canonical form. -/

namespace Sys2Proof.Machine

@[simp] theorem Memory.read_nil (a : Nat) : Memory.read [] a = 0 := rfl

theorem Memory.read_cons (c : Host.Cell) (m : Memory) (a : Nat) :
    Memory.read (c :: m) a = if c.1 = a then c.2 else Memory.read m a := rfl

theorem Memory.read_unlisted {m : Memory} {a : Nat} (h : ∀ c ∈ m, c.1 ≠ a) : Memory.read m a = 0 := by
  induction m with
  | nil => rfl
  | cons c m ih =>
    rw [Memory.read_cons, if_neg (h c (by simp)), ih fun d hd => h d (by simp [hd])]

theorem Memory.read_filter_ne (m : Memory) (a b : Nat) :
    Memory.read (m.filter (fun c => c.1 != a)) b = if b = a then 0 else Memory.read m b := by
  by_cases hba : b = a
  · subst hba
    rw [if_pos rfl]
    exact Memory.read_unlisted (by simp)
  · rw [if_neg hba]
    induction m with
    | nil => rfl
    | cons c m ih =>
      by_cases hc : c.1 = a
      · have hcb : ¬ c.1 = b := fun h => hba (h ▸ hc)
        rw [List.filter_cons_of_neg (by simp [hc]), ih, Memory.read_cons, if_neg hcb]
      · simp only [List.filter_cons, bne_iff_ne, ne_eq, hc, not_false_eq_true, if_true, Memory.read_cons, ih]

theorem Memory.read_insert {m : Memory} {a : Nat} (h : ∀ c ∈ m, c.1 ≠ a) (v : Byte) (b : Nat) :
    Memory.read (Memory.insert m a v) b = if b = a then v else Memory.read m b := by
  induction m with
  | nil => simp [Memory.insert, Memory.read_cons, eq_comm]
  | cons c m ih =>
    have hc : c.1 ≠ a := h c (by simp)
    have hm := ih fun d hd => h d (by simp [hd])
    unfold Memory.insert
    split
    · simp [Memory.read_cons, eq_comm]
    · rw [Memory.read_cons, hm, Memory.read_cons]
      by_cases hb : b = a
      · subst hb; simp [hc]
      · simp [hb]

/-- Reading after a write: the written byte at its address, every other byte as before. -/
@[simp] theorem Memory.read_write (m : Memory) (a b : Nat) (v : Byte) :
    Memory.read (Memory.write m a v) b = if b = a then v else Memory.read m b := by
  unfold Memory.write
  split
  · next hv => rw [Memory.read_filter_ne, hv]
  · rw [Memory.read_insert (by simp), Memory.read_filter_ne]
    by_cases hb : b = a <;> simp [hb]

theorem Memory.mem_insert {m : Memory} {a : Nat} {v : Byte} {d : Host.Cell} :
    d ∈ Memory.insert m a v ↔ d = (a, v) ∨ d ∈ m := by
  induction m with
  | nil => simp [Memory.insert]
  | cons c m ih =>
    unfold Memory.insert
    split
    · simp
    · simp [ih]; tauto

theorem Memory.wf_nil : Memory.wf [] := ⟨List.Pairwise.nil, fun _ h => nomatch h⟩

theorem Memory.wf_filter {m : Memory} (h : m.wf) (p : Host.Cell → Bool) : Memory.wf (m.filter p) :=
  ⟨h.1.sublist List.filter_sublist, fun c hc => h.2 c (List.mem_of_mem_filter hc)⟩

theorem Memory.wf_insert {m : Memory} (h : m.wf) {a : Nat} (ha : ∀ c ∈ m, c.1 ≠ a) {v : Byte} (hv : v ≠ 0) :
    Memory.wf (Memory.insert m a v) := by
  refine ⟨?_, fun c hc => ?_⟩
  · induction m with
    | nil => simp [Memory.insert]
    | cons c m ih =>
      have hp := List.pairwise_cons.1 h.1
      unfold Memory.insert
      split
      · next hac =>
        exact List.pairwise_cons.2
          ⟨fun d hd => by
            rcases List.mem_cons.1 hd with rfl | hd
            · exact hac
            · exact hac.trans (hp.1 d hd), h.1⟩
      · next hac =>
        have hc : c.1 ≠ a := ha c (by simp)
        refine List.pairwise_cons.2 ⟨fun d hd => ?_,
          ih ⟨hp.2, fun d hd => h.2 d (by simp [hd])⟩ fun d hd => ha d (by simp [hd])⟩
        rcases Memory.mem_insert.1 hd with rfl | hd
        · show c.1 < a
          omega
        · exact hp.1 d hd
  · rcases Memory.mem_insert.1 hc with rfl | hc
    · exact hv
    · exact h.2 c hc

/-- A write keeps the canonical form. -/
theorem Memory.wf_write {m : Memory} (h : m.wf) (a : Nat) (v : Byte) : Memory.wf (Memory.write m a v) := by
  unfold Memory.write
  split
  · exact Memory.wf_filter h _
  · next hv => exact Memory.wf_insert (Memory.wf_filter h _) (by simp) hv

theorem Memory.below_write {m : Memory} {n : Nat} (h : m.below n) {a : Nat} (ha : a < n) (v : Byte) :
    Memory.below (Memory.write m a v) n := by
  intro c hc
  unfold Memory.write at hc
  split at hc
  · exact h c (List.mem_of_mem_filter hc)
  · rcases Memory.mem_insert.1 hc with rfl | hc
    · exact ha
    · exact h c (List.mem_of_mem_filter hc)

theorem Memory.mem_ofBytesAt {bs : List Byte} {a : Nat} {c : Host.Cell} (h : c ∈ Memory.ofBytesAt a bs) :
    a ≤ c.1 ∧ c.1 < a + bs.length ∧ c.2 ≠ 0 := by
  induction bs generalizing a with
  | nil => simp [Memory.ofBytesAt] at h
  | cons b bs ih =>
    unfold Memory.ofBytesAt at h
    have step : c ∈ Memory.ofBytesAt (a + 1) bs → a ≤ c.1 ∧ c.1 < a + (b :: bs).length ∧ c.2 ≠ 0 := fun hc => by
      have := ih hc
      simp only [List.length_cons]
      exact ⟨by omega, by omega, this.2.2⟩
    split at h
    · exact step h
    · next hb =>
      rcases List.mem_cons.1 h with rfl | h
      · exact ⟨le_refl _, by simp, hb⟩
      · exact step h

theorem Memory.read_ofBytesAt (bs : List Byte) (a i : Nat) :
    Memory.read (Memory.ofBytesAt a bs) (a + i) = bs.getD i 0 := by
  induction bs generalizing a i with
  | nil => simp [Memory.ofBytesAt]
  | cons b bs ih =>
    unfold Memory.ofBytesAt
    cases i with
    | zero =>
      split
      · next hb =>
        rw [Memory.read_unlisted fun c hc => by have := (Memory.mem_ofBytesAt hc).1; omega]
        simp [hb]
      · simp [Memory.read_cons]
    | succ i =>
      have hi := ih (a + 1) i
      rw [show a + 1 + i = a + (i + 1) by omega] at hi
      split
      · simpa using hi
      · rw [Memory.read_cons, if_neg (by simp), hi]
        simp

@[simp] theorem Memory.read_ofBytes (bs : List Byte) (i : Nat) : Memory.read (Memory.ofBytes bs) i = bs.getD i 0 := by
  simpa [Memory.ofBytes] using Memory.read_ofBytesAt bs 0 i

theorem Memory.wf_ofBytesAt (bs : List Byte) (a : Nat) : Memory.wf (Memory.ofBytesAt a bs) := by
  refine ⟨?_, fun c hc => (Memory.mem_ofBytesAt hc).2.2⟩
  induction bs generalizing a with
  | nil => simp [Memory.ofBytesAt]
  | cons b bs ih =>
    unfold Memory.ofBytesAt
    split
    · exact ih _
    · exact List.pairwise_cons.2 ⟨fun d hd => (Memory.mem_ofBytesAt hd).1, ih _⟩

/-- A memory made from bytes is in canonical form. -/
theorem Memory.wf_ofBytes (bs : List Byte) : Memory.wf (Memory.ofBytes bs) := Memory.wf_ofBytesAt bs 0

theorem Memory.below_ofBytes {bs : List Byte} {n : Nat} (h : bs.length ≤ n) : Memory.below (Memory.ofBytes bs) n :=
  fun c hc => by have := (Memory.mem_ofBytesAt hc).2.1; omega

theorem Memory.wf_writeBytes {m : Memory} (h : m.wf) (a : Nat) (bs : List Byte) :
    Memory.wf (Memory.writeBytes m a bs) := by
  induction bs generalizing m a with
  | nil => exact h
  | cons b bs ih => exact ih (Memory.wf_write h a b) (a + 1)

/-- Reading after consecutive writes: the written bytes in their range, every other byte as before. -/
theorem Memory.read_writeBytes (m : Memory) (a : Nat) (bs : List Byte) (b : Nat) :
    Memory.read (Memory.writeBytes m a bs) b
      = if a ≤ b ∧ b < a + bs.length then bs.getD (b - a) 0 else Memory.read m b := by
  induction bs generalizing m a with
  | nil => simp [Memory.writeBytes]
  | cons c bs ih =>
    rw [Memory.writeBytes, ih, Memory.read_write]
    by_cases hab : b = a
    · subst hab; simp
    · by_cases h : a + 1 ≤ b ∧ b < a + 1 + bs.length
      · rw [if_pos h, if_pos (by simp; omega), show b - a = (b - (a + 1)) + 1 by omega]
        simp
      · rw [if_neg h, if_neg hab, if_neg (by simp; omega)]

@[simp] theorem Memory.length_bytes (m : Memory) (a n : Nat) : (Memory.bytes m a n).length = n := by
  simp [Memory.bytes]

theorem Memory.getD_bytes (m : Memory) {a n i : Nat} (h : i < n) :
    (Memory.bytes m a n).getD i 0 = Memory.read m (a + i) := by
  simp [Memory.bytes, List.getD, h]

theorem Memory.bytes_congr {m m' : Memory} {a n : Nat} (h : ∀ i, i < n → m.read (a + i) = m'.read (a + i)) :
    Memory.bytes m a n = Memory.bytes m' a n := by
  unfold Memory.bytes
  refine List.map_congr_left fun i hi => ?_
  obtain ⟨k, hk, rfl⟩ := List.mem_range'.1 hi
  simpa using h k hk

theorem Memory.read_of_mem {m : Memory} (h : m.wf) {c : Host.Cell} (hc : c ∈ m) : m.read c.1 = c.2 := by
  induction m with
  | nil => simp at hc
  | cons d m ih =>
    have hp := List.pairwise_cons.1 h.1
    rcases List.mem_cons.1 hc with rfl | hc
    · simp [Memory.read_cons]
    · rw [Memory.read_cons, if_neg (by have := hp.1 c hc; omega)]
      exact ih ⟨hp.2, fun d hd => h.2 d (by simp [hd])⟩ hc

theorem Memory.mem_of_read {m : Memory} {a : Nat} (h : m.read a ≠ 0) : (a, m.read a) ∈ m := by
  induction m with
  | nil => simp at h
  | cons d m ih =>
    rw [Memory.read_cons] at h ⊢
    by_cases hd : d.1 = a
    · rw [if_pos hd, ← hd]
      exact List.mem_cons_self
    · simp only [hd, if_false] at h ⊢
      exact List.mem_cons_of_mem _ (ih h)

/-- Two memories in canonical form that read the same are the same data. -/
theorem Memory.ext_of_wf {m m' : Memory} (h : m.wf) (h' : m'.wf) (hr : ∀ a, m.read a = m'.read a) : m = m' := by
  have sub : ∀ {m m' : Memory}, m.wf → m'.wf → (∀ a, m.read a = m'.read a) → ∀ c ∈ m, c ∈ m' := by
    intro m m' h _ hr c hc
    have h1 := Memory.read_of_mem h hc
    have h2 := Memory.mem_of_read (m := m') (a := c.1) (by rw [← hr, h1]; exact h.2 c hc)
    rwa [← hr, h1] at h2
  refine List.Perm.eq_of_pairwise (le := fun c d : Host.Cell => c.1 < d.1) ?_ h.1 h'.1 ?_
  · intro a b _ _ hab hba
    omega
  · refine (List.perm_ext_iff_of_nodup ?_ ?_).2 fun c => ⟨sub h h' hr c, sub h' h (fun a => (hr a).symm) c⟩
    · exact h.1.imp fun hab he => by simp [he] at hab
    · exact h'.1.imp fun hab he => by simp [he] at hab

end Sys2Proof.Machine
end

