-- ==== Sys2Proof/Laws/Grid.lean ====
section
/-! SUPPORT. The laws of bits, cells and frames: a cell write changes one bit, a cell lies inside the buffer, and what the
two chunk forms make of a payload. -/

namespace Sys2Proof.Machine

/-! ## Bits of a byte -/

theorem getLsbD_offsetMask {k : Nat} (hk : k < 8) (j : Nat) : (offsetMask k).getLsbD j = decide (j = k) := by
  by_cases hj : j < 8
  · interval_cases k <;> interval_cases j <;> decide
  · simp only [not_lt] at hj
    rw [BitVec.getLsbD_of_ge _ _ hj]
    exact (decide_eq_false (by omega)).symm

/-- `bitAt` is the bit of weight 2^k (`10_state.md` R23). -/
theorem bitAt_eq_getLsbD (b : Byte) {k : Nat} (hk : k < 8) : bitAt b k = b.getLsbD k := by
  unfold bitAt
  cases hb : b.getLsbD k
  · have h0 : b &&& offsetMask k = 0 := by
      apply BitVec.eq_of_getLsbD_eq
      intro j hj
      rw [BitVec.getLsbD_and, getLsbD_offsetMask hk]
      by_cases hjk : j = k
      · subst hjk; simp [hb]
      · simp [hjk]
    simp [h0]
  · have h0 : b &&& offsetMask k ≠ 0 := by
      intro h
      have := congrArg (BitVec.getLsbD · k) h
      simp [getLsbD_offsetMask hk, hb] at this
    simpa using h0

/-- Writing a bit changes that bit alone. -/
theorem getLsbD_withBit (b : Byte) {k : Nat} (hk : k < 8) (v : Bool) (j : Nat) :
    (withBit b k v).getLsbD j = if j = k then v else b.getLsbD j := by
  unfold withBit
  by_cases hj : j < 8
  · cases v <;> by_cases hjk : j = k
    · subst hjk; simp [getLsbD_offsetMask hk]
    · simp [BitVec.getLsbD_and, BitVec.getLsbD_not, getLsbD_offsetMask hk, hjk]
      intro h; exact BitVec.lt_of_getLsbD h
    · subst hjk; simp [BitVec.getLsbD_or, getLsbD_offsetMask hk]
    · simp [BitVec.getLsbD_or, getLsbD_offsetMask hk, hjk]
  · simp only [not_lt] at hj
    rw [BitVec.getLsbD_of_ge _ _ hj, BitVec.getLsbD_of_ge _ _ hj, if_neg (by omega)]

theorem bitOffset_lt (x : Nat) : bitOffset x < 8 := Nat.mod_lt _ (by decide)

/-! ## Cells -/

theorem readCell_eq_getLsbD (stride : Nat) (g : Memory) (x y : Nat) :
    readCell stride g x y = (g.read (byteIndex stride x y)).getLsbD (bitOffset x) :=
  bitAt_eq_getLsbD _ (bitOffset_lt x)

/-- A cell write changes one bit of one byte (`10_state.md` R22). -/
theorem getLsbD_read_writeCell (stride : Nat) (g : Memory) (x y : Nat) (v : Bool) (a k : Nat) :
    ((writeCell stride g x y v).read a).getLsbD k
      = if a = byteIndex stride x y ∧ k = bitOffset x then v else (g.read a).getLsbD k := by
  unfold writeCell
  rw [Memory.read_write]
  by_cases ha : a = byteIndex stride x y
  · subst ha
    simp only [if_true, true_and]
    exact getLsbD_withBit _ (bitOffset_lt x) v k
  · simp [ha]

theorem wf_writeCell {g : Memory} (h : g.wf) (stride x y : Nat) (v : Bool) : Memory.wf (writeCell stride g x y v) :=
  Memory.wf_write h _ _

/-- A canonical column lies in its row's bytes. -/
theorem div8_lt_strideOf {x w : Nat} (hx : x < w) : x / 8 < strideOf w := by
  unfold strideOf
  omega

/-- The byte index of a canonical cell never reaches GRID_BYTES (`40_grid_commands.md` R139). -/
theorem byteIndex_lt_gridBytesOf {x y w h : Nat} (hx : x < w) (hy : y < h) :
    byteIndex (strideOf w) x y < gridBytesOf w h := by
  have h1 := div8_lt_strideOf hx
  have h2 : (y + 1) * strideOf w ≤ h * strideOf w := Nat.mul_le_mul_right _ hy
  unfold byteIndex gridBytesOf
  rw [Nat.mul_comm (strideOf w) h]
  rw [Nat.add_mul, Nat.one_mul] at h2
  omega

/-- Two canonical cells of a grid share a byte and a bit only if they are the same cell (`10_state.md` R21). -/
theorem cell_place_injective {w x y x' y' : Nat} (hx : x < w) (hx' : x' < w)
    (hb : byteIndex (strideOf w) x y = byteIndex (strideOf w) x' y') (ho : bitOffset x = bitOffset x') :
    x = x' ∧ y = y' := by
  have h1 := div8_lt_strideOf hx
  have h2 := div8_lt_strideOf hx'
  unfold byteIndex at hb
  unfold bitOffset at ho
  have hpos : 0 < strideOf w := by omega
  have hd := congrArg (· % strideOf w) hb
  have hq := congrArg (· / strideOf w) hb
  simp only [Nat.add_mul_mod_self_right, Nat.add_mul_div_right _ _ hpos, Nat.mod_eq_of_lt h1, Nat.mod_eq_of_lt h2,
    Nat.div_eq_of_lt h1, Nat.div_eq_of_lt h2, Nat.zero_add] at hd hq
  exact ⟨by omega, hq⟩

/-- A wrapped coordinate is canonical (`40_grid_commands.md` R131). -/
theorem wrapCoord_lt {dim : Nat} (h : 0 < dim) (x : Int) : wrapCoord x dim < dim := by
  unfold wrapCoord
  have h1 := Int.emod_nonneg x (show (dim : Int) ≠ 0 by omega)
  have h2 := Int.emod_lt_of_pos x (show (0 : Int) < dim by omega)
  omega

theorem State.hasCells_iff (s : State) : s.hasCells = true ↔ 0 < s.width.toNat ∧ 0 < s.height.toNat := by
  have pos : ∀ v : Half, v ≠ 0 ↔ 0 < v.toNat := fun v => by
    rw [Nat.pos_iff_ne_zero, ne_eq, ne_eq, ← BitVec.toNat_inj]
    rfl
  simp [State.hasCells, ← pos]

/-! ## Frames -/

theorem wf_setRun {g : Memory} (h : g.wf) (w p n : Nat) : Memory.wf (setRun w g p n) := by
  induction n generalizing g p with
  | zero => exact h
  | succ n ih => exact ih (wf_writeCell h _ _ _ _) _

theorem below_setRun {g : Memory} {w ht : Nat} (h : g.below (gridBytesOf w ht)) {p n : Nat} (hn : p + n ≤ w * ht) :
    Memory.below (setRun w g p n) (gridBytesOf w ht) := by
  induction n generalizing g p with
  | zero => exact h
  | succ n ih =>
    have hpos : 0 < w := Nat.pos_of_ne_zero (by rintro rfl; simp at hn)
    exact ih (Memory.below_write h (byteIndex_lt_gridBytesOf (Nat.mod_lt _ hpos)
      (Nat.div_lt_of_lt_mul (by omega))) _) (by omega)

/-- A set run sets the cells of its indices and no other bit (`42_chunk_execution.md` R196). -/
theorem getLsbD_read_setRun (w : Nat) (g : Memory) (p n a k : Nat) :
    ((setRun w g p n).read a).getLsbD k = true
      ↔ (g.read a).getLsbD k = true
        ∨ ∃ q, p ≤ q ∧ q < p + n ∧ a = byteIndex (strideOf w) (q % w) (q / w) ∧ k = bitOffset (q % w) := by
  induction n generalizing g p with
  | zero =>
    rw [setRun]
    exact ⟨Or.inl, fun h => h.elim id fun ⟨q, h1, h2, _⟩ => by omega⟩
  | succ n ih =>
    rw [setRun, ih, getLsbD_read_writeCell]
    by_cases hp : a = byteIndex (strideOf w) (p % w) (p / w) ∧ k = bitOffset (p % w)
    · rw [if_pos hp]
      exact ⟨fun _ => Or.inr ⟨p, le_refl _, by omega, hp⟩, fun _ => Or.inl rfl⟩
    · rw [if_neg hp]
      refine or_congr_right ⟨?_, ?_⟩
      · rintro ⟨q, h1, h2, h3⟩
        exact ⟨q, by omega, by omega, h3⟩
      · rintro ⟨q, h1, h2, h3⟩
        refine ⟨q, ?_, by omega, h3⟩
        rcases Nat.lt_or_ge p q with h | h
        · exact h
        · exact absurd ((Nat.le_antisymm h1 h) ▸ h3) hp

/-- One turn of the walk, if it answers: what it did (`42_chunk_execution.md` R196). -/
theorem rlePair_ok {w ht : Nat} {g g' : Memory} {p u v p' : Nat} (h : rlePair w ht g p u v = .ok (g', p')) :
    p + u + v ≤ w * ht ∧ g' = setRun w g (p + u) v ∧ p' = p + u + v := by
  unfold rlePair at h
  split at h
  · cases h
  · split at h
    · cases h
    · cases h
      exact ⟨by omega, rfl, rfl⟩

/-- One turn of the walk answers when both runs fit. -/
theorem rlePair_of_le {w ht : Nat} {g : Memory} {p u v : Nat} (h : p + u + v ≤ w * ht) :
    rlePair w ht g p u v = .ok (setRun w g (p + u) v, p + u + v) := by
  unfold rlePair
  rw [if_neg (by omega), if_neg (by omega)]

/-- One turn of the walk faults when a run does not fit. -/
theorem rlePair_of_gt {w ht : Nat} {g : Memory} {p u v : Nat} (h : w * ht < p + u + v) :
    rlePair w ht g p u v = .error .rleOverrun := by
  unfold rlePair
  rw [if_pos (show p + u + v > w * ht from h), ite_self]

/-- The walk, if it answers, keeps the canonical form and stays inside the buffer. -/
theorem rleWalk_keeps {w ht : Nat} {g g' : Memory} {p : Nat} {payload : List Byte} (hw : g.wf)
    (hb : g.below (gridBytesOf w ht)) (h : rleWalk w ht g p payload = .ok g') :
    g'.wf ∧ g'.below (gridBytesOf w ht) := by
  fun_induction rleWalk w ht g p payload with
  | case1 g p => cases h; exact ⟨hw, hb⟩
  | case2 => cases h
  | case3 g p u g1 p1 h1 =>
    cases h
    obtain ⟨hle, hg, -⟩ := rlePair_ok h1
    rw [hg]
    exact ⟨wf_setRun hw _ _ _, below_setRun hb hle⟩
  | case4 => cases h
  | case5 g p u v rest g1 p1 h1 ih =>
    obtain ⟨hle, rfl, rfl⟩ := rlePair_ok h1
    exact ih (wf_setRun hw _ _ _) (below_setRun hb hle) h

/-- One more run: its cells, then those of the rest in the other colour. -/
theorem getD_expandRuns_cons (c : Bool) (r : Byte) (rs : List Byte) (i : Nat) :
    (expandRuns c (r :: rs)).getD i false
      = if i < r.toNat then c else (expandRuns (!c) rs).getD (i - r.toNat) false := by
  simp only [expandRuns, List.getD, List.getElem?_append, List.length_replicate]
  split
  · next h => simp [h]
  · rfl

/-- The walk where the runs fit: it answers, and the bits it sets are those of the set cells of the runs
(`42_chunk_execution.md` R196). -/
theorem rleWalk_of_le {w ht : Nat} {g : Memory} {p : Nat} {payload : List Byte}
    (hle : p + runTotal payload ≤ w * ht) :
    ∃ g', rleWalk w ht g p payload = .ok g' ∧ ∀ a k, (g'.read a).getLsbD k = true
      ↔ (g.read a).getLsbD k = true
        ∨ ∃ q, p ≤ q ∧ q < w * ht ∧ (expandRuns false payload).getD (q - p) false = true
            ∧ a = byteIndex (strideOf w) (q % w) (q / w) ∧ k = bitOffset (q % w) := by
  fun_induction rleWalk w ht g p payload with
  | case1 g p =>
    refine ⟨g, rfl, fun a k => ⟨Or.inl, ?_⟩⟩
    rintro (h | ⟨q, _, _, h, _⟩)
    · exact h
    · simp [expandRuns] at h
  | case2 g p u f h1 =>
    rw [rlePair_of_le (by simpa [runTotal] using hle)] at h1
    cases h1
  | case3 g p u g1 p1 h1 =>
    rw [rlePair_of_le (by simpa [runTotal] using hle)] at h1
    cases h1
    refine ⟨_, rfl, fun a k => ⟨Or.inl, ?_⟩⟩
    rintro (h | ⟨q, _, _, h, _⟩)
    · exact h
    · rw [getD_expandRuns_cons] at h
      split at h
      · cases h
      · simp [expandRuns] at h
  | case4 g p u v rest f h1 =>
    simp only [runTotal, List.map_cons, List.sum_cons] at hle
    rw [rlePair_of_le (by omega)] at h1
    cases h1
  | case5 g p u v rest g1 p1 h1 ih =>
    simp only [runTotal, List.map_cons, List.sum_cons] at hle
    obtain ⟨-, rfl, rfl⟩ := rlePair_ok h1
    obtain ⟨g', e, h⟩ := ih (by simp only [runTotal]; omega)
    have later : ∀ q, p + u.toNat + v.toNat ≤ q → (expandRuns false (u :: v :: rest)).getD (q - p) false
        = (expandRuns false rest).getD (q - (p + u.toNat + v.toNat)) false := fun q hq => by
      rw [getD_expandRuns_cons, if_neg (by omega), getD_expandRuns_cons, if_neg (by omega)]
      simp only [Bool.not_false, Bool.not_true]
      congr 1
      omega
    refine ⟨g', e, fun a k => ?_⟩
    rw [h, getLsbD_read_setRun, or_assoc]
    refine or_congr_right ⟨?_, ?_⟩
    · rintro (⟨q, h1, h2, h3⟩ | ⟨q, h1, h2, h3, h4⟩)
      · refine ⟨q, by omega, by omega, ?_, h3⟩
        rw [getD_expandRuns_cons, if_neg (by omega), getD_expandRuns_cons, if_pos (by omega)]
        rfl
      · exact ⟨q, by omega, h2, (later q h1).trans h3, h4⟩
    · rintro ⟨q, h1, h2, h3, h4⟩
      by_cases hq : p + u.toNat + v.toNat ≤ q
      · exact Or.inr ⟨q, hq, h2, (later q hq).symm.trans h3, h4⟩
      · rw [getD_expandRuns_cons] at h3
        split at h3
        · cases h3
        · exact Or.inl ⟨q, by omega, by omega, h4⟩

/-- The walk where a run does not fit (`42_chunk_execution.md` R196). -/
theorem rleWalk_of_gt {w ht : Nat} {g : Memory} {p : Nat} {payload : List Byte} (hp : p ≤ w * ht)
    (hlt : w * ht < p + runTotal payload) : rleWalk w ht g p payload = .error .rleOverrun := by
  fun_induction rleWalk w ht g p payload with
  | case1 g p =>
    simp [runTotal] at hlt
    omega
  | case2 g p u f h1 =>
    rw [rlePair_of_gt (by simpa [runTotal] using hlt)] at h1
    cases h1
    rfl
  | case3 g p u g1 p1 h1 =>
    rw [rlePair_of_gt (by simpa [runTotal] using hlt)] at h1
    cases h1
  | case4 g p u v rest f h1 =>
    by_cases h : p + u.toNat + v.toNat ≤ w * ht
    · rw [rlePair_of_le h] at h1
      cases h1
    · rw [rlePair_of_gt (by omega)] at h1
      cases h1
      rfl
  | case5 g p u v rest g1 p1 h1 ih =>
    obtain ⟨h, rfl, rfl⟩ := rlePair_ok h1
    simp only [runTotal, List.map_cons, List.sum_cons] at hlt ih
    exact ih h (by omega)

/-- The frame of an accepted run-length payload is in canonical form and inside the buffer. -/
theorem rleFrame_keeps {w ht : Nat} {g : Memory} {payload : List Byte} (h : rleFrame w ht payload = .ok g) :
    g.wf ∧ g.below (gridBytesOf w ht) :=
  rleWalk_keeps Memory.wf_nil (fun _ hc => nomatch hc) h

/-- The frame of an accepted uncompressed payload: its bytes (`42_chunk_execution.md` R194). -/
theorem rawFrame_ok {w ht : Nat} {g : Memory} {payload : List Byte} (h : rawFrame w ht payload = .ok g) :
    payload.length = gridBytesOf w ht ∧ g = Memory.ofBytes payload := by
  unfold rawFrame at h
  split at h
  · cases h
  · next hl => cases h; exact ⟨not_not.1 hl, rfl⟩

theorem rawFrame_keeps {w ht : Nat} {g : Memory} {payload : List Byte} (h : rawFrame w ht payload = .ok g) :
    g.wf ∧ g.below (gridBytesOf w ht) := by
  obtain ⟨hl, rfl⟩ := rawFrame_ok h
  exact ⟨Memory.wf_ofBytes _, Memory.below_ofBytes hl.le⟩

end Sys2Proof.Machine
end

