-- ==== Sys2Proof/Laws/State.lean ====
section
/-! SUPPORT. What each update of the state does to each field: one lemma per field per update, true by rfl, so that no
proof unfolds a record update. -/

namespace Sys2Proof.Machine

variable (s : State)

@[simp] theorem State.answer_eq (d : Word) : s.answer d = s.respond .ok 0 d := rfl
@[simp] theorem State.refuse_eq (r : Reason) : s.refuse r = s.respond .refused 0 (byteData r.code) := rfl
@[simp] theorem State.raiseChunk_eq (f : FaultCode) : s.raiseChunk f = s.looseGrid.raise f s.cursor := rfl

@[simp] theorem State.respond_params (st : Status) (x : Byte) (d : Word) : (s.respond st x d).params = s.params := rfl
@[simp] theorem State.respond_stream (st : Status) (x : Byte) (d : Word) : (s.respond st x d).stream = s.stream := rfl
@[simp] theorem State.respond_smLen (st : Status) (x : Byte) (d : Word) : (s.respond st x d).smLen = s.smLen := rfl
@[simp] theorem State.respond_inputs (st : Status) (x : Byte) (d : Word) : (s.respond st x d).inputs = s.inputs := rfl
@[simp] theorem State.respond_rsp (st : Status) (x : Byte) (d : Word) :
    (s.respond st x d).rsp = some (responseWord st x d) := rfl
@[simp] theorem State.respond_mode (st : Status) (x : Byte) (d : Word) : (s.respond st x d).mode = s.mode := rfl
@[simp] theorem State.respond_width (st : Status) (x : Byte) (d : Word) : (s.respond st x d).width = s.width := rfl
@[simp] theorem State.respond_height (st : Status) (x : Byte) (d : Word) : (s.respond st x d).height = s.height := rfl
@[simp] theorem State.respond_grid (st : Status) (x : Byte) (d : Word) : (s.respond st x d).grid = s.grid := rfl
@[simp] theorem State.respond_cursor (st : Status) (x : Byte) (d : Word) : (s.respond st x d).cursor = s.cursor := rfl
@[simp] theorem State.respond_streamLen (st : Status) (x : Byte) (d : Word) :
    (s.respond st x d).streamLen = s.streamLen := rfl
@[simp] theorem State.respond_frameId (st : Status) (x : Byte) (d : Word) : (s.respond st x d).frameId = s.frameId :=
    rfl
@[simp] theorem State.respond_hdrFrameCount (st : Status) (x : Byte) (d : Word) :
    (s.respond st x d).hdrFrameCount = s.hdrFrameCount := rfl
@[simp] theorem State.respond_fault (st : Status) (x : Byte) (d : Word) : (s.respond st x d).fault = s.fault := rfl
@[simp] theorem State.respond_faultAddr (st : Status) (x : Byte) (d : Word) :
    (s.respond st x d).faultAddr = s.faultAddr := rfl
@[simp] theorem State.respond_freeCount (st : Status) (x : Byte) (d : Word) :
    (s.respond st x d).freeCount = s.freeCount := rfl

@[simp] theorem State.raise_params (f : FaultCode) (d : Word) : (s.raise f d).params = s.params := rfl
@[simp] theorem State.raise_stream (f : FaultCode) (d : Word) : (s.raise f d).stream = s.stream := rfl
@[simp] theorem State.raise_smLen (f : FaultCode) (d : Word) : (s.raise f d).smLen = s.smLen := rfl
@[simp] theorem State.raise_inputs (f : FaultCode) (d : Word) : (s.raise f d).inputs = s.inputs := rfl
@[simp] theorem State.raise_rsp (f : FaultCode) (d : Word) :
    (s.raise f d).rsp = some (responseWord .fault 0 (byteData f.code)) := rfl
@[simp] theorem State.raise_mode (f : FaultCode) (d : Word) : (s.raise f d).mode = Mode.faulted := rfl
@[simp] theorem State.raise_width (f : FaultCode) (d : Word) : (s.raise f d).width = s.width := rfl
@[simp] theorem State.raise_height (f : FaultCode) (d : Word) : (s.raise f d).height = s.height := rfl
@[simp] theorem State.raise_grid (f : FaultCode) (d : Word) : (s.raise f d).grid = s.grid := rfl
@[simp] theorem State.raise_cursor (f : FaultCode) (d : Word) : (s.raise f d).cursor = s.cursor := rfl
@[simp] theorem State.raise_streamLen (f : FaultCode) (d : Word) : (s.raise f d).streamLen = s.streamLen := rfl
@[simp] theorem State.raise_frameId (f : FaultCode) (d : Word) : (s.raise f d).frameId = s.frameId := rfl
@[simp] theorem State.raise_hdrFrameCount (f : FaultCode) (d : Word) : (s.raise f d).hdrFrameCount = s.hdrFrameCount :=
    rfl
@[simp] theorem State.raise_fault (f : FaultCode) (d : Word) : (s.raise f d).fault = f.code := rfl
@[simp] theorem State.raise_faultAddr (f : FaultCode) (d : Word) : (s.raise f d).faultAddr = d := rfl
@[simp] theorem State.raise_freeCount (f : FaultCode) (d : Word) : (s.raise f d).freeCount = s.freeCount := rfl

@[simp] theorem State.looseGrid_params : s.looseGrid.params = s.params := rfl
@[simp] theorem State.looseGrid_stream : s.looseGrid.stream = s.stream := rfl
@[simp] theorem State.looseGrid_smLen : s.looseGrid.smLen = s.smLen := rfl
@[simp] theorem State.looseGrid_inputs : s.looseGrid.inputs = s.inputs := rfl
@[simp] theorem State.looseGrid_rsp : s.looseGrid.rsp = s.rsp := rfl
@[simp] theorem State.looseGrid_mode : s.looseGrid.mode = s.mode := rfl
@[simp] theorem State.looseGrid_width : s.looseGrid.width = s.width := rfl
@[simp] theorem State.looseGrid_height : s.looseGrid.height = s.height := rfl
@[simp] theorem State.looseGrid_grid :
    s.looseGrid.grid = Memory.ofBytes ((Config.freeGrid s.freeCount).take s.gridBytes) := rfl
@[simp] theorem State.looseGrid_cursor : s.looseGrid.cursor = s.cursor := rfl
@[simp] theorem State.looseGrid_streamLen : s.looseGrid.streamLen = s.streamLen := rfl
@[simp] theorem State.looseGrid_frameId : s.looseGrid.frameId = s.frameId := rfl
@[simp] theorem State.looseGrid_hdrFrameCount : s.looseGrid.hdrFrameCount = s.hdrFrameCount := rfl
@[simp] theorem State.looseGrid_fault : s.looseGrid.fault = s.fault := rfl
@[simp] theorem State.looseGrid_faultAddr : s.looseGrid.faultAddr = s.faultAddr := rfl
@[simp] theorem State.looseGrid_freeCount : s.looseGrid.freeCount = s.freeCount + 1 := rfl

@[simp] theorem State.hardReset_params : s.hardReset.params = s.params := rfl
@[simp] theorem State.hardReset_stream : s.hardReset.stream = s.stream := rfl
@[simp] theorem State.hardReset_smLen : s.hardReset.smLen = s.smLen := rfl
@[simp] theorem State.hardReset_inputs : s.hardReset.inputs = s.inputs := rfl
@[simp] theorem State.hardReset_rsp : s.hardReset.rsp = none := rfl
@[simp] theorem State.hardReset_mode : s.hardReset.mode = Mode.unconf := rfl
@[simp] theorem State.hardReset_width : s.hardReset.width = 0 := rfl
@[simp] theorem State.hardReset_height : s.hardReset.height = 0 := rfl
@[simp] theorem State.hardReset_grid : s.hardReset.grid = [] := rfl
@[simp] theorem State.hardReset_cursor : s.hardReset.cursor = 0 := rfl
@[simp] theorem State.hardReset_streamLen : s.hardReset.streamLen = 0 := rfl
@[simp] theorem State.hardReset_frameId : s.hardReset.frameId = 0 := rfl
@[simp] theorem State.hardReset_hdrFrameCount : s.hardReset.hdrFrameCount = 0 := rfl
@[simp] theorem State.hardReset_fault : s.hardReset.fault = 0 := rfl
@[simp] theorem State.hardReset_faultAddr : s.hardReset.faultAddr = 0 := rfl
@[simp] theorem State.hardReset_freeCount : s.hardReset.freeCount = s.freeCount := rfl

@[simp] theorem State.setGb_params (i : Nat) (v : Byte) : (s.setGb i v).params = s.params := rfl
@[simp] theorem State.setGb_stream (i : Nat) (v : Byte) : (s.setGb i v).stream = s.stream := rfl
@[simp] theorem State.setGb_smLen (i : Nat) (v : Byte) : (s.setGb i v).smLen = s.smLen := rfl
@[simp] theorem State.setGb_inputs (i : Nat) (v : Byte) : (s.setGb i v).inputs = s.inputs := rfl
@[simp] theorem State.setGb_rsp (i : Nat) (v : Byte) : (s.setGb i v).rsp = s.rsp := rfl
@[simp] theorem State.setGb_mode (i : Nat) (v : Byte) : (s.setGb i v).mode = s.mode := rfl
@[simp] theorem State.setGb_width (i : Nat) (v : Byte) : (s.setGb i v).width = s.width := rfl
@[simp] theorem State.setGb_height (i : Nat) (v : Byte) : (s.setGb i v).height = s.height := rfl
@[simp] theorem State.setGb_grid (i : Nat) (v : Byte) : (s.setGb i v).grid = s.grid.write i v := rfl
@[simp] theorem State.setGb_cursor (i : Nat) (v : Byte) : (s.setGb i v).cursor = s.cursor := rfl
@[simp] theorem State.setGb_streamLen (i : Nat) (v : Byte) : (s.setGb i v).streamLen = s.streamLen := rfl
@[simp] theorem State.setGb_frameId (i : Nat) (v : Byte) : (s.setGb i v).frameId = s.frameId := rfl
@[simp] theorem State.setGb_hdrFrameCount (i : Nat) (v : Byte) : (s.setGb i v).hdrFrameCount = s.hdrFrameCount := rfl
@[simp] theorem State.setGb_fault (i : Nat) (v : Byte) : (s.setGb i v).fault = s.fault := rfl
@[simp] theorem State.setGb_faultAddr (i : Nat) (v : Byte) : (s.setGb i v).faultAddr = s.faultAddr := rfl
@[simp] theorem State.setGb_freeCount (i : Nat) (v : Byte) : (s.setGb i v).freeCount = s.freeCount := rfl

@[simp] theorem State.setCell_params (x y : Nat) (v : Bool) : (s.setCell x y v).params = s.params := rfl
@[simp] theorem State.setCell_stream (x y : Nat) (v : Bool) : (s.setCell x y v).stream = s.stream := rfl
@[simp] theorem State.setCell_smLen (x y : Nat) (v : Bool) : (s.setCell x y v).smLen = s.smLen := rfl
@[simp] theorem State.setCell_inputs (x y : Nat) (v : Bool) : (s.setCell x y v).inputs = s.inputs := rfl
@[simp] theorem State.setCell_rsp (x y : Nat) (v : Bool) : (s.setCell x y v).rsp = s.rsp := rfl
@[simp] theorem State.setCell_mode (x y : Nat) (v : Bool) : (s.setCell x y v).mode = s.mode := rfl
@[simp] theorem State.setCell_width (x y : Nat) (v : Bool) : (s.setCell x y v).width = s.width := rfl
@[simp] theorem State.setCell_height (x y : Nat) (v : Bool) : (s.setCell x y v).height = s.height := rfl
@[simp] theorem State.setCell_grid (x y : Nat) (v : Bool) : (s.setCell x y v).grid = writeCell s.stride s.grid x y v :=
    rfl
@[simp] theorem State.setCell_cursor (x y : Nat) (v : Bool) : (s.setCell x y v).cursor = s.cursor := rfl
@[simp] theorem State.setCell_streamLen (x y : Nat) (v : Bool) : (s.setCell x y v).streamLen = s.streamLen := rfl
@[simp] theorem State.setCell_frameId (x y : Nat) (v : Bool) : (s.setCell x y v).frameId = s.frameId := rfl
@[simp] theorem State.setCell_hdrFrameCount (x y : Nat) (v : Bool) :
    (s.setCell x y v).hdrFrameCount = s.hdrFrameCount := rfl
@[simp] theorem State.setCell_fault (x y : Nat) (v : Bool) : (s.setCell x y v).fault = s.fault := rfl
@[simp] theorem State.setCell_faultAddr (x y : Nat) (v : Bool) : (s.setCell x y v).faultAddr = s.faultAddr := rfl
@[simp] theorem State.setCell_freeCount (x y : Nat) (v : Bool) : (s.setCell x y v).freeCount = s.freeCount := rfl

@[simp] theorem State.clearGrid_params : s.clearGrid.params = s.params := rfl
@[simp] theorem State.clearGrid_stream : s.clearGrid.stream = s.stream := rfl
@[simp] theorem State.clearGrid_smLen : s.clearGrid.smLen = s.smLen := rfl
@[simp] theorem State.clearGrid_inputs : s.clearGrid.inputs = s.inputs := rfl
@[simp] theorem State.clearGrid_rsp : s.clearGrid.rsp = s.rsp := rfl
@[simp] theorem State.clearGrid_mode : s.clearGrid.mode = s.mode := rfl
@[simp] theorem State.clearGrid_width : s.clearGrid.width = s.width := rfl
@[simp] theorem State.clearGrid_height : s.clearGrid.height = s.height := rfl
@[simp] theorem State.clearGrid_grid : s.clearGrid.grid = [] := rfl
@[simp] theorem State.clearGrid_cursor : s.clearGrid.cursor = s.cursor := rfl
@[simp] theorem State.clearGrid_streamLen : s.clearGrid.streamLen = s.streamLen := rfl
@[simp] theorem State.clearGrid_frameId : s.clearGrid.frameId = s.frameId := rfl
@[simp] theorem State.clearGrid_hdrFrameCount : s.clearGrid.hdrFrameCount = s.hdrFrameCount := rfl
@[simp] theorem State.clearGrid_fault : s.clearGrid.fault = s.fault := rfl
@[simp] theorem State.clearGrid_faultAddr : s.clearGrid.faultAddr = s.faultAddr := rfl
@[simp] theorem State.clearGrid_freeCount : s.clearGrid.freeCount = s.freeCount := rfl

@[simp] theorem State.endOfStream_params : s.endOfStream.params = s.params := rfl
@[simp] theorem State.endOfStream_stream : s.endOfStream.stream = s.stream := rfl
@[simp] theorem State.endOfStream_smLen : s.endOfStream.smLen = s.smLen := rfl
@[simp] theorem State.endOfStream_inputs : s.endOfStream.inputs = s.inputs := rfl
@[simp] theorem State.endOfStream_rsp : s.endOfStream.rsp = some (responseWord .none 0 0) := rfl
@[simp] theorem State.endOfStream_mode : s.endOfStream.mode = s.mode := rfl
@[simp] theorem State.endOfStream_width : s.endOfStream.width = s.width := rfl
@[simp] theorem State.endOfStream_height : s.endOfStream.height = s.height := rfl
@[simp] theorem State.endOfStream_grid : s.endOfStream.grid = s.grid := rfl
@[simp] theorem State.endOfStream_cursor : s.endOfStream.cursor = s.streamLen := rfl
@[simp] theorem State.endOfStream_streamLen : s.endOfStream.streamLen = s.streamLen := rfl
@[simp] theorem State.endOfStream_frameId : s.endOfStream.frameId = s.frameId := rfl
@[simp] theorem State.endOfStream_hdrFrameCount : s.endOfStream.hdrFrameCount = s.hdrFrameCount := rfl
@[simp] theorem State.endOfStream_fault : s.endOfStream.fault = s.fault := rfl
@[simp] theorem State.endOfStream_faultAddr : s.endOfStream.faultAddr = s.faultAddr := rfl
@[simp] theorem State.endOfStream_freeCount : s.endOfStream.freeCount = s.freeCount := rfl

@[simp] theorem State.frameDone_params (n : Nat) (g : Memory) : (s.frameDone n g).params = s.params := rfl
@[simp] theorem State.frameDone_stream (n : Nat) (g : Memory) : (s.frameDone n g).stream = s.stream := rfl
@[simp] theorem State.frameDone_smLen (n : Nat) (g : Memory) : (s.frameDone n g).smLen = s.smLen := rfl
@[simp] theorem State.frameDone_inputs (n : Nat) (g : Memory) : (s.frameDone n g).inputs = s.inputs := rfl
@[simp] theorem State.frameDone_rsp (n : Nat) (g : Memory) :
    (s.frameDone n g).rsp = some (responseWord .ok 0 (s.frameId + 1)) := rfl
@[simp] theorem State.frameDone_mode (n : Nat) (g : Memory) : (s.frameDone n g).mode = s.mode := rfl
@[simp] theorem State.frameDone_width (n : Nat) (g : Memory) : (s.frameDone n g).width = s.width := rfl
@[simp] theorem State.frameDone_height (n : Nat) (g : Memory) : (s.frameDone n g).height = s.height := rfl
@[simp] theorem State.frameDone_grid (n : Nat) (g : Memory) : (s.frameDone n g).grid = g := rfl
@[simp] theorem State.frameDone_cursor (n : Nat) (g : Memory) :
    (s.frameDone n g).cursor = BitVec.ofNat 32 (s.cursor.toNat + chunkHeaderBytes + n) := rfl
@[simp] theorem State.frameDone_streamLen (n : Nat) (g : Memory) : (s.frameDone n g).streamLen = s.streamLen := rfl
@[simp] theorem State.frameDone_frameId (n : Nat) (g : Memory) : (s.frameDone n g).frameId = s.frameId + 1 := rfl
@[simp] theorem State.frameDone_hdrFrameCount (n : Nat) (g : Memory) :
    (s.frameDone n g).hdrFrameCount = s.hdrFrameCount := rfl
@[simp] theorem State.frameDone_fault (n : Nat) (g : Memory) : (s.frameDone n g).fault = s.fault := rfl
@[simp] theorem State.frameDone_faultAddr (n : Nat) (g : Memory) : (s.frameDone n g).faultAddr = s.faultAddr := rfl
@[simp] theorem State.frameDone_freeCount (n : Nat) (g : Memory) : (s.frameDone n g).freeCount = s.freeCount := rfl

@[simp] theorem State.withInputs_params (l : List HostInput) : (s.withInputs l).params = s.params := rfl
@[simp] theorem State.withInputs_stream (l : List HostInput) : (s.withInputs l).stream = s.stream := rfl
@[simp] theorem State.withInputs_smLen (l : List HostInput) : (s.withInputs l).smLen = s.smLen := rfl
@[simp] theorem State.withInputs_inputs (l : List HostInput) : (s.withInputs l).inputs = l := rfl
@[simp] theorem State.withInputs_rsp (l : List HostInput) : (s.withInputs l).rsp = s.rsp := rfl
@[simp] theorem State.withInputs_mode (l : List HostInput) : (s.withInputs l).mode = s.mode := rfl
@[simp] theorem State.withInputs_width (l : List HostInput) : (s.withInputs l).width = s.width := rfl
@[simp] theorem State.withInputs_height (l : List HostInput) : (s.withInputs l).height = s.height := rfl
@[simp] theorem State.withInputs_grid (l : List HostInput) : (s.withInputs l).grid = s.grid := rfl
@[simp] theorem State.withInputs_cursor (l : List HostInput) : (s.withInputs l).cursor = s.cursor := rfl
@[simp] theorem State.withInputs_streamLen (l : List HostInput) : (s.withInputs l).streamLen = s.streamLen := rfl
@[simp] theorem State.withInputs_frameId (l : List HostInput) : (s.withInputs l).frameId = s.frameId := rfl
@[simp] theorem State.withInputs_hdrFrameCount (l : List HostInput) :
    (s.withInputs l).hdrFrameCount = s.hdrFrameCount := rfl
@[simp] theorem State.withInputs_fault (l : List HostInput) : (s.withInputs l).fault = s.fault := rfl
@[simp] theorem State.withInputs_faultAddr (l : List HostInput) : (s.withInputs l).faultAddr = s.faultAddr := rfl
@[simp] theorem State.withInputs_freeCount (l : List HostInput) : (s.withInputs l).freeCount = s.freeCount := rfl

@[simp] theorem State.latchLen_params : s.latchLen.params = s.params := rfl
@[simp] theorem State.latchLen_stream : s.latchLen.stream = s.stream := rfl
@[simp] theorem State.latchLen_smLen : s.latchLen.smLen = s.smLen := rfl
@[simp] theorem State.latchLen_inputs : s.latchLen.inputs = s.inputs := rfl
@[simp] theorem State.latchLen_rsp : s.latchLen.rsp = s.rsp := rfl
@[simp] theorem State.latchLen_mode : s.latchLen.mode = s.mode := rfl
@[simp] theorem State.latchLen_width : s.latchLen.width = s.width := rfl
@[simp] theorem State.latchLen_height : s.latchLen.height = s.height := rfl
@[simp] theorem State.latchLen_grid : s.latchLen.grid = s.grid := rfl
@[simp] theorem State.latchLen_cursor : s.latchLen.cursor = s.cursor := rfl
@[simp] theorem State.latchLen_streamLen : s.latchLen.streamLen = s.smLen := rfl
@[simp] theorem State.latchLen_frameId : s.latchLen.frameId = s.frameId := rfl
@[simp] theorem State.latchLen_hdrFrameCount : s.latchLen.hdrFrameCount = s.hdrFrameCount := rfl
@[simp] theorem State.latchLen_fault : s.latchLen.fault = s.fault := rfl
@[simp] theorem State.latchLen_faultAddr : s.latchLen.faultAddr = s.faultAddr := rfl
@[simp] theorem State.latchLen_freeCount : s.latchLen.freeCount = s.freeCount := rfl

@[simp] theorem State.construct_params (h : Header) : (s.construct h).params = s.params := rfl
@[simp] theorem State.construct_stream (h : Header) : (s.construct h).stream = s.stream := rfl
@[simp] theorem State.construct_smLen (h : Header) : (s.construct h).smLen = s.smLen := rfl
@[simp] theorem State.construct_inputs (h : Header) : (s.construct h).inputs = s.inputs := rfl
@[simp] theorem State.construct_rsp (h : Header) : (s.construct h).rsp = some (responseWord .ok 0 0) := rfl
@[simp] theorem State.construct_mode (h : Header) : (s.construct h).mode = Mode.dec := rfl
@[simp] theorem State.construct_width (h : Header) : (s.construct h).width = BitVec.ofNat 16 h.width := rfl
@[simp] theorem State.construct_height (h : Header) : (s.construct h).height = BitVec.ofNat 16 h.height := rfl
@[simp] theorem State.construct_grid (h : Header) : (s.construct h).grid = [] := rfl
@[simp] theorem State.construct_cursor (h : Header) : (s.construct h).cursor = BitVec.ofNat 32 headerBytes := rfl
@[simp] theorem State.construct_streamLen (h : Header) : (s.construct h).streamLen = s.streamLen := rfl
@[simp] theorem State.construct_frameId (h : Header) : (s.construct h).frameId = 0 := rfl
@[simp] theorem State.construct_hdrFrameCount (h : Header) :
    (s.construct h).hdrFrameCount = BitVec.ofNat 32 h.frameCount := rfl
@[simp] theorem State.construct_fault (h : Header) : (s.construct h).fault = s.fault := rfl
@[simp] theorem State.construct_faultAddr (h : Header) : (s.construct h).faultAddr = s.faultAddr := rfl
@[simp] theorem State.construct_freeCount (h : Header) : (s.construct h).freeCount = s.freeCount := rfl

end Sys2Proof.Machine
end

