-- ==== Sys2Proof/Laws/Ops.lean ====
section
/-! SUPPORT. One lemma per shared operation that says everything it can do, and the response words as numbers. -/

namespace Sys2Proof.Machine

/-! ## Words -/

/-- The command and response words put their fields at bits 47:40, 39:32 and 31:0. -/
theorem append_eq_ofNat (p q : Byte) (d : Word) :
    (p ++ q ++ d : Word48) = BitVec.ofNat 48 (p.toNat * 2 ^ 40 + q.toNat * 2 ^ 32 + d.toNat) := by
  apply BitVec.eq_of_toNat_eq
  have h1 := p.isLt
  have h2 := q.isLt
  have h3 := d.isLt
  rw [BitVec.toNat_ofNat, BitVec.toNat_append, BitVec.toNat_append, ← Nat.shiftLeft_add_eq_or_of_lt q.isLt,
    ← Nat.shiftLeft_add_eq_or_of_lt d.isLt, Nat.shiftLeft_eq, Nat.shiftLeft_eq]
  simp only [Nat.reducePow] at *
  omega

/-- A response word as the number of its fields (`30_encoding.md` R112). -/
theorem responseWord_eq (status : Status) (aux : Byte) (data : Word) :
    responseWord status aux data = rsp48 status.code.toNat aux.toNat data.toNat :=
  append_eq_ofNat _ _ _

/-- A refusal is the response of its code and nothing else. -/
theorem refuse_eq_refusedWith (s : State) (r : Reason) : s.refuse r = refusedWith s r.code.toNat := by
  cases r <;> rfl

/-- Taking a fault, with the fault's number. -/
theorem raise_eq_faultedWith (s : State) (f : FaultCode) (addr : Word) :
    s.raise f addr = faultedWith s f.code.toNat addr := by
  cases f <;> rfl

/-- An answer with 32 bits of data, as a number. -/
theorem answer_eq_rsp48 (s : State) (d : Word) : s.answer d = { s with rsp := some (rsp48 0 0 d.toNat) } := by
  show { s with rsp := some (responseWord .ok 0 d) } = _
  rw [responseWord_eq]
  rfl

/-- End of stream, its response as a number (`60_exceptions.md` R244). -/
theorem endOfStream_eq (s : State) :
    s.endOfStream = { s with cursor := s.streamLen, rsp := some (rsp48 1 0 0) } := by
  show { s with cursor := s.streamLen, rsp := some (responseWord .none 0 0) } = _
  rw [responseWord_eq]
  rfl

/-- A decoded frame, its response as a number (`41_decoder_commands.md` R163). -/
theorem frameDone_eq (s : State) (n : Nat) (g : Memory) :
    s.frameDone n g
      = { s with
          grid := g
          cursor := BitVec.ofNat 32 (s.cursor.toNat + 6 + n)
          frameId := s.frameId + 1
          rsp := some (rsp48 0 0 (s.frameId + 1).toNat) } := by
  show { s with
      grid := g
      cursor := BitVec.ofNat 32 (s.cursor.toNat + 6 + n)
      frameId := s.frameId + 1
      rsp := some (responseWord .ok 0 (s.frameId + 1)) } = _
  rw [responseWord_eq]
  rfl

/-- A fault of DNEXT, with the fault's number and the free grid (`60_exceptions.md` R240). -/
theorem raiseChunk_eq (s : State) (f : FaultCode) :
    s.raiseChunk f = faultedWith s.looseGrid f.code.toNat s.cursor := raise_eq_faultedWith _ _ _

/-- The number of a status byte decides the status of a response word. -/
theorem responseWord_status (status : Status) (aux : Byte) (data : Word) :
    (responseWord status aux data).extractLsb' 40 8 = status.code := by
  apply BitVec.eq_of_getLsbD_eq
  intro i hi
  have h1 : ¬ 40 + i < 32 := by omega
  have h2 : ¬ 40 + i - 32 < 8 := by omega
  have h3 : 40 + i - 32 - 8 = i := by omega
  simp only [responseWord, BitVec.getLsbD_extractLsb', BitVec.getLsbD_append, h1, h2, h3, hi, if_false, decide_true,
    Bool.true_and]

/-! ## Checks -/

theorem State.legalIn_of_mem {s : State} {l : List Mode} (h : s.mode ∈ l) (body : Result) : s.legalIn l body = body :=
  if_pos h

theorem State.legalIn_of_not_mem {s : State} {l : List Mode} (h : s.mode ∉ l) (body : Result) :
    s.legalIn l body = .next (s.refuse .badState) := if_neg h

/-- The state check, if it answers: BAD_STATE, or the body in a legal STATE. -/
theorem State.legalIn_cases {s : State} {l : List Mode} {body : Result} {r : Result} (h : s.legalIn l body = r) :
    (s.mode ∉ l ∧ r = .next (s.refuse .badState)) ∨ (s.mode ∈ l ∧ body = r) := by
  by_cases hm : s.mode ∈ l
  · exact Or.inr ⟨hm, (legalIn_of_mem hm body).symm.trans h⟩
  · exact Or.inl ⟨hm, h.symm.trans (legalIn_of_not_mem hm body)⟩

theorem State.withCells_of_pos {s : State} (hw : 0 < s.width.toNat) (hh : 0 < s.height.toNat) (body : Result) :
    s.withCells body = body := if_pos (s.hasCells_iff.2 ⟨hw, hh⟩)

theorem State.withCells_of_zero {s : State} (h : s.width.toNat = 0 ∨ s.height.toNat = 0) (body : Result) :
    s.withCells body = .next (s.refuse .zeroDim) :=
  if_neg fun hc => by have := s.hasCells_iff.1 hc; omega

/-- The zero-dimension check, if it answers: ZERO_DIM, or the body on a grid with cells. -/
theorem State.withCells_cases {s : State} {body r : Result} (h : s.withCells body = r) :
    ((s.width.toNat = 0 ∨ s.height.toNat = 0) ∧ r = .next (s.refuse .zeroDim))
      ∨ (0 < s.width.toNat ∧ 0 < s.height.toNat ∧ body = r) := by
  by_cases hc : 0 < s.width.toNat ∧ 0 < s.height.toNat
  · exact Or.inr ⟨hc.1, hc.2, (withCells_of_pos hc.1 hc.2 body).symm.trans h⟩
  · have hz : s.width.toNat = 0 ∨ s.height.toNat = 0 := by omega
    exact Or.inl ⟨hz, h.symm.trans (withCells_of_zero hz body)⟩

theorem State.withIndex_of_lt {s : State} {i : Nat} (h : i < s.gridBytes) (body : Result) : s.withIndex i body = body :=
  if_neg (by omega)

theorem State.withIndex_of_ge {s : State} {i : Nat} (h : s.gridBytes ≤ i) (body : Result) :
    s.withIndex i body = .next (s.refuse .badIndex) := if_pos h

/-- The index check, if it answers: BAD_INDEX, or the body with an index in range. -/
theorem State.withIndex_cases {s : State} {i : Nat} {body r : Result} (h : s.withIndex i body = r) :
    (s.gridBytes ≤ i ∧ r = .next (s.refuse .badIndex)) ∨ (i < s.gridBytes ∧ body = r) := by
  by_cases hi : i < s.gridBytes
  · exact Or.inr ⟨hi, (withIndex_of_lt hi body).symm.trans h⟩
  · have hi' : s.gridBytes ≤ i := by omega
    exact Or.inl ⟨hi', h.symm.trans (withIndex_of_ge hi' body)⟩

/-! ## The stream -/

theorem State.memBytes_of_le {s : State} {a n : Nat} (h : a + n ≤ s.streamLen.toNat) :
    s.memBytes a n = some (s.stream.bytes a n) := if_pos h

theorem State.memBytes_of_gt {s : State} {a n : Nat} (h : s.streamLen.toNat < a + n) : s.memBytes a n = none :=
  if_neg (by omega)

/-- `MemRead`, if it is defined: the range lies in the stream and these are its bytes (`20_memory.md` R62). -/
theorem State.memBytes_some {s : State} {a n : Nat} {bs : List Byte} (h : s.memBytes a n = some bs) :
    a + n ≤ s.streamLen.toNat ∧ bs = s.stream.bytes a n := by
  unfold memBytes at h
  split at h
  · next hle => exact ⟨hle, (Option.some.inj h).symm⟩
  · cases h

/-- The chunk header six bytes of the stream give (`30_encoding.md` R97). -/
theorem parseChunkHeader_bytes (s : State) (a : Nat) :
    parseChunkHeader (s.stream.bytes a 6)
      = { kind := mem2 s a, payloadSize := mem2 s (a + 2), compression := mem1 s (a + 4),
          background := s.stream.read (a + 5) } := by
  simp [parseChunkHeader, Memory.bytes, List.range', leNat, mem1, mem2, Nat.add_assoc]

/-- The stream header the first 24 bytes give (`30_encoding.md` R91). -/
theorem parseHeader_bytes (s : State) :
    parseHeader (s.stream.bytes 0 24)
      = { magic := s.stream.bytes 0 12, version := mem4 s 12, frameCount := mem4 s 16, width := mem2 s 20,
          height := mem2 s 22 } := by
  simp [parseHeader, Memory.bytes, List.range', leNat, mem1, mem2, mem4]
  constructor <;> ring

/-- `chunk_read` inside the buffer (`30_encoding.md` R103). -/
theorem State.chunkRead_of_le {s : State} {c : Nat} (h : c + 6 ≤ s.streamLen.toNat) :
    s.chunkRead c = some
      { kind := mem2 s c, payloadSize := mem2 s (c + 2), compression := mem1 s (c + 4),
        background := s.stream.read (c + 5) } := by
  unfold chunkRead
  rw [show chunkHeaderBytes = 6 from rfl, memBytes_of_le h, Option.map_some, parseChunkHeader_bytes]

theorem State.chunkRead_of_gt {s : State} {c : Nat} (h : s.streamLen.toNat < c + 6) : s.chunkRead c = none := by
  unfold chunkRead
  rw [show chunkHeaderBytes = 6 from rfl, memBytes_of_gt h, Option.map_none]

theorem State.payloadRead_of_le {s : State} {n : Nat} (h : s.cursor.toNat + 6 + n ≤ s.streamLen.toNat) :
    s.payloadRead n = some (s.stream.bytes (s.cursor.toNat + 6) n) := memBytes_of_le h

theorem State.payloadRead_of_gt {s : State} {n : Nat} (h : s.streamLen.toNat < s.cursor.toNat + 6 + n) :
    s.payloadRead n = none := memBytes_of_gt h

/-- Running a chunk, if it answers: BAD_STATE, end of stream, a fault of the chunk, or the frame. -/
theorem State.runChunk_cases {s : State} {n : Nat} {body : List Byte → Except FaultCode Memory} {r : Result}
    (h : s.runChunk n body = r) :
    (s.mode ≠ Mode.dec ∧ r = .next (s.refuse .badState))
      ∨ (s.mode = Mode.dec ∧ s.streamLen.toNat < s.cursor.toNat + 6 + n ∧ r = .next s.endOfStream)
      ∨ (∃ f, s.mode = Mode.dec ∧ s.cursor.toNat + 6 + n ≤ s.streamLen.toNat
          ∧ body (s.stream.bytes (s.cursor.toNat + 6) n) = .error f ∧ r = .next (s.raiseChunk f))
      ∨ (∃ g, s.mode = Mode.dec ∧ s.cursor.toNat + 6 + n ≤ s.streamLen.toNat
          ∧ body (s.stream.bytes (s.cursor.toNat + 6) n) = .ok g ∧ r = .next (s.frameDone n g)) := by
  rcases legalIn_cases h with ⟨hm, hr⟩ | ⟨hm, hr⟩
  · exact Or.inl ⟨by simpa using hm, hr⟩
  · have hm' : s.mode = Mode.dec := by simpa using hm
    by_cases hle : s.cursor.toNat + 6 + n ≤ s.streamLen.toNat
    · rw [payloadRead_of_le hle] at hr
      cases hb : body (s.stream.bytes (s.cursor.toNat + 6) n) with
      | error f =>
        simp only [hb] at hr
        exact Or.inr (Or.inr (Or.inl ⟨f, hm', hle, rfl, hr.symm⟩))
      | ok g =>
        simp only [hb] at hr
        exact Or.inr (Or.inr (Or.inr ⟨g, hm', hle, rfl, hr.symm⟩))
    · rw [payloadRead_of_gt (by omega)] at hr
      exact Or.inr (Or.inl ⟨hm', by omega, hr.symm⟩)

end Sys2Proof.Machine
end

