-- ==== Sys2Proof/Laws/Effect.lean ====
section
/-! SUPPORT. Everything an instruction can do, said once: each instruction answers a next state, and that state is one of
the listed effects. -/

namespace Sys2Proof.Machine

/-- The effects an instruction can have on a state. -/
inductive Effect (s : State) : Instr → State → Prop
  /-- Any instruction: a refusal, BAD_STATE exactly where it is not legal, and of DNEXT for no other reason. -/
  | refused (i : Instr) (r : Reason) (h : r = .badState ↔ s.mode ∉ legalModes i)
      (hc : runsChunk i = true → r = .badState) : Effect s i (s.refuse r)
  /-- GGET, GRDB, DFIN, RDSR: an answer and nothing else. -/
  | read (i : Instr) (d : Word) (h : s.mode ∈ legalModes i)
      (hi : (∃ x y, i = .gget x y) ∨ (∃ idx, i = .grdb idx) ∨ i = .dfin ∨ ∃ n, i = .rdsr n) :
      Effect s i (s.respond .ok 0 d)
  /-- GNEW: the grid is created. -/
  | created (w h : Int) (hm : s.mode = .unconf) (hw : 0 ≤ w) (hh : 0 ≤ h)
      (hf : gridBytesOf w.toNat h.toNat ≤ s.params.gridCapBytes.val) :
      Effect s (.gnew w h) (({ s with
        width := BitVec.ofInt 16 w
        height := BitVec.ofInt 16 h
        mode := Mode.grid }).clearGrid.respond .ok 0 0)
  /-- GSET, GFLIP: a cell is written. -/
  | cellWritten (i : Instr) (x y : Int) (v : Bool) (hm : s.mode = .grid) (hw : 0 < s.width.toNat)
      (hh : 0 < s.height.toNat) (hi : i = .gset x y v ∨ i = .gflip x y) :
      Effect s i ((s.setCell (s.wrapX x) (s.wrapY y) v).respond .ok 0 (bitData (s.cell (s.wrapX x) (s.wrapY y))))
  /-- GCLR: the grid is cleared. -/
  | cleared (hm : s.mode = .grid) : Effect s .gclr (s.clearGrid.respond .ok 0 0)
  /-- GWRB: a byte is written. -/
  | byteWritten (idx : Nat) (data : Byte) (hm : s.mode = .grid) (hi : idx < s.gridBytes) :
      Effect s (.gwrb idx data) ((s.setGb idx data).respond .ok 0 0)
  /-- DINIT: a fault. -/
  | notConstructed (f : FaultCode) (hm : s.mode = .unconf) (hf : f.code.toNat ≤ 5) :
      Effect s .dinit (s.latchLen.raise f 0)
  /-- DINIT: the decoder is constructed. -/
  | constructed (h : Header) (hm : s.mode = .unconf) (hr : s.latchLen.headerRead = some h)
      (hf : Params.headerFault s.params h = none) : Effect s .dinit (s.latchLen.construct h)
  /-- DNEXT or a chunk form: end of stream. -/
  | ended (i : Instr) (hc : runsChunk i = true) (hm : s.mode = .dec)
      (hl : s.streamLen.toNat < s.cursor.toNat + 6 ∨ s.streamLen.toNat < s.cursor.toNat + 6 + chunkSize i s) :
      Effect s i s.endOfStream
  /-- DNEXT or a chunk form: a fault of the chunk. -/
  | chunkFault (i : Instr) (f : FaultCode) (hc : runsChunk i = true) (hm : s.mode = .dec) (hf : 6 ≤ f.code.toNat)
      (hf' : f.code.toNat ≤ 9) : Effect s i (s.raiseChunk f)
  /-- DNEXT or a chunk form: a frame. -/
  | frame (i : Instr) (g : Memory) (hc : runsChunk i = true) (hm : s.mode = .dec)
      (hl : s.cursor.toNat + 6 + chunkSize i s ≤ s.streamLen.toNat) (hg : g.wf) (hb : g.below s.gridBytes) :
      Effect s i (s.frameDone (chunkSize i s) g)
  /-- DREW: the decoder is rewound. -/
  | rewound (hm : s.mode = .dec) :
      Effect s .drew (({ s with cursor := BitVec.ofNat 32 headerBytes, frameId := 0 }).clearGrid.respond .ok 0 0)

theorem rlePair_error {w ht : Nat} {g : Memory} {p u v : Nat} {f : FaultCode} (h : rlePair w ht g p u v = .error f) :
    f = .rleOverrun := by
  by_cases hle : p + u + v ≤ w * ht
  · rw [rlePair_of_le hle] at h
    cases h
  · rw [rlePair_of_gt (by omega)] at h
    cases h
    rfl

/-- The only fault of a run-length chunk (`42_chunk_execution.md` R196). -/
theorem rleFrame_error {w ht : Nat} {payload : List Byte} {f : FaultCode} (h : rleFrame w ht payload = .error f) :
    f = .rleOverrun := by
  unfold rleFrame at h
  revert h
  generalize ([] : Memory) = g
  generalize 0 = p
  fun_induction rleWalk w ht g p payload with
  | case1 => exact fun h => nomatch h
  | case2 g p u f1 h1 => exact fun h => by cases h; exact rlePair_error h1
  | case3 => exact fun h => nomatch h
  | case4 g p u v rest f1 h1 => exact fun h => by cases h; exact rlePair_error h1
  | case5 g p u v rest g1 p1 h1 ih => exact ih

/-- The only fault of an uncompressed chunk (`42_chunk_execution.md` R194). -/
theorem rawFrame_error {w ht : Nat} {payload : List Byte} {f : FaultCode} (h : rawFrame w ht payload = .error f) :
    f = .rawLenMismatch := by
  unfold rawFrame at h
  split at h
  · cases h
    rfl
  · cases h

/-- The header checks raise the faults 2 to 5 (`60_exceptions.md` R231). -/
theorem headerFault_le {p : Params} {h : Header} {f : FaultCode} (hf : Params.headerFault p h = some f) :
    f.code.toNat ≤ 5 := by
  unfold Params.headerFault at hf
  split at hf
  · cases hf; decide
  · split at hf
    · cases hf; decide
    · split at hf
      · cases hf; decide
      · split at hf
        · cases hf
        · cases hf; decide

/-- Running a chunk is one of the effects of its instruction. -/
theorem runChunk_effect (s : State) (i : Instr) (hi : runsChunk i = true)
    (hl : legalModes i = [.dec]) (body : List Byte → Except FaultCode Memory)
    (herr : ∀ p f, body p = .error f → 6 ≤ f.code.toNat ∧ f.code.toNat ≤ 9)
    (hok : ∀ p g, body p = .ok g → Memory.wf g ∧ Memory.below g s.gridBytes) :
    ∃ t, s.runChunk (chunkSize i s) body = .next t ∧ Effect s i t := by
  rcases State.runChunk_cases (s := s) (n := chunkSize i s) (body := body) rfl with
    ⟨hm, h⟩ | ⟨hm, hlt, h⟩ | ⟨f, hm, _, hb, h⟩ | ⟨g, hm, hle, hb, h⟩
  · exact ⟨_, h, .refused i .badState (by simp [hl, hm]) fun _ => rfl⟩
  · exact ⟨_, h, .ended i hi hm (Or.inr hlt)⟩
  · exact ⟨_, h, .chunkFault i f hi hm (herr _ _ hb).1 (herr _ _ hb).2⟩
  · exact ⟨_, h, .frame i g hi hm hle (hok _ _ hb).1 (hok _ _ hb).2⟩

/-- Every instruction answers a next state, by one of the effects listed. -/
theorem exec_effect (i : Instr) (s : State) : ∃ t, exec i s = .next t ∧ Effect s i t := by
  have illegal : ∀ body : Result, s.mode ∉ legalModes i → s.legalIn (legalModes i) body = .next (s.refuse .badState) :=
    fun body h => State.legalIn_of_not_mem h body
  have other : ∀ r : Reason, r ≠ .badState → runsChunk i = false → s.mode ∈ legalModes i → Effect s i (s.refuse r) :=
    fun r hr hc hm => .refused i r ⟨fun h => absurd h hr, fun h => absurd hm h⟩ fun h => by rw [hc] at h; cases h
  cases i with
  | frameRaw n b =>
    exact runChunk_effect s (.frameRaw n b) rfl rfl _ (fun _ _ h => by rw [rawFrame_error h]; decide)
      (fun _ _ => rawFrame_keeps)
  | frameRle n b =>
    exact runChunk_effect s (.frameRle n b) rfl rfl _ (fun _ _ h => by rw [rleFrame_error h]; decide)
      (fun _ _ => rleFrame_keeps)
  | gnew w h =>
    by_cases hm : s.mode ∈ legalModes (.gnew w h)
    · rw [show exec (.gnew w h) s = _ from State.legalIn_of_mem hm _]
      have hu : s.mode = .unconf := by simpa [legalModes] using hm
      by_cases hneg : w < 0 ∨ h < 0
      · exact ⟨_, if_pos hneg, other .badDim (by decide) rfl hm⟩
      · rw [if_neg hneg]
        cases hf : Params.fits s.params w.toNat h.toNat with
        | true => exact ⟨_, if_pos rfl, .created w h hu (by omega) (by omega) (of_decide_eq_true hf)⟩
        | false => exact ⟨_, if_neg (by decide), other .badDim (by decide) rfl hm⟩
    · exact ⟨_, illegal _ hm, .refused _ .badState (by simp [hm]) fun _ => rfl⟩
  | gget x y =>
    by_cases hm : s.mode ∈ legalModes (.gget x y)
    · rw [show exec (.gget x y) s = _ from State.legalIn_of_mem hm _]
      rcases State.withCells_cases (s := s) rfl with ⟨_, h⟩ | ⟨_, _, h⟩
      · exact ⟨_, h, other .zeroDim (by decide) rfl hm⟩
      · exact ⟨_, h.symm, .read _ _ hm (by simp)⟩
    · exact ⟨_, illegal _ hm, .refused _ .badState (by simp [hm]) fun _ => rfl⟩
  | gset x y v =>
    by_cases hm : s.mode ∈ legalModes (.gset x y v)
    · rw [show exec (.gset x y v) s = _ from State.legalIn_of_mem hm _]
      have hg : s.mode = .grid := by simpa [legalModes] using hm
      rcases State.withCells_cases (s := s) rfl with ⟨_, h⟩ | ⟨hw, hh, h⟩
      · exact ⟨_, h, other .zeroDim (by decide) rfl hm⟩
      · exact ⟨_, h.symm, .cellWritten _ x y v hg hw hh (Or.inl rfl)⟩
    · exact ⟨_, illegal _ hm, .refused _ .badState (by simp [hm]) fun _ => rfl⟩
  | gflip x y =>
    by_cases hm : s.mode ∈ legalModes (.gflip x y)
    · rw [show exec (.gflip x y) s = _ from State.legalIn_of_mem hm _]
      have hg : s.mode = .grid := by simpa [legalModes] using hm
      rcases State.withCells_cases (s := s) rfl with ⟨_, h⟩ | ⟨hw, hh, h⟩
      · exact ⟨_, h, other .zeroDim (by decide) rfl hm⟩
      · exact ⟨_, h.symm, .cellWritten _ x y _ hg hw hh (Or.inr rfl)⟩
    · exact ⟨_, illegal _ hm, .refused _ .badState (by simp [hm]) fun _ => rfl⟩
  | gclr =>
    by_cases hm : s.mode ∈ legalModes .gclr
    · exact ⟨_, State.legalIn_of_mem hm _, .cleared (by simpa [legalModes] using hm)⟩
    · exact ⟨_, illegal _ hm, .refused _ .badState (by simp [hm]) fun _ => rfl⟩
  | grdb idx =>
    by_cases hm : s.mode ∈ legalModes (.grdb idx)
    · rw [show exec (.grdb idx) s = _ from State.legalIn_of_mem hm _]
      rcases State.withIndex_cases (s := s) (i := idx) rfl with ⟨_, h⟩ | ⟨_, h⟩
      · exact ⟨_, h, other .badIndex (by decide) rfl hm⟩
      · exact ⟨_, h.symm, .read _ _ hm (by simp)⟩
    · exact ⟨_, illegal _ hm, .refused _ .badState (by simp [hm]) fun _ => rfl⟩
  | gwrb idx d =>
    by_cases hm : s.mode ∈ legalModes (.gwrb idx d)
    · rw [show exec (.gwrb idx d) s = _ from State.legalIn_of_mem hm _]
      rcases State.withIndex_cases (s := s) (i := idx) rfl with ⟨_, h⟩ | ⟨hlt, h⟩
      · exact ⟨_, h, other .badIndex (by decide) rfl hm⟩
      · exact ⟨_, h.symm, .byteWritten idx d (by simpa [legalModes] using hm) hlt⟩
    · exact ⟨_, illegal _ hm, .refused _ .badState (by simp [hm]) fun _ => rfl⟩
  | dinit =>
    by_cases hm : s.mode ∈ legalModes .dinit
    · rw [show exec .dinit s = _ from State.legalIn_of_mem hm _]
      have hu : s.mode = .unconf := by simpa [legalModes] using hm
      cases hr : s.latchLen.headerRead with
      | none => exact ⟨_, rfl, .notConstructed .hdrShort hu (by decide)⟩
      | some h =>
        cases hf : Params.headerFault s.params h with
        | some f => exact ⟨_, by simp only [hf], .notConstructed f hu (headerFault_le hf)⟩
        | none => exact ⟨_, by simp only [hf], .constructed h hu hr hf⟩
    · exact ⟨_, illegal _ hm, .refused _ .badState (by simp [hm]) fun _ => rfl⟩
  | dnext =>
    by_cases hm : s.mode ∈ legalModes .dnext
    · rw [show exec .dnext s = _ from State.legalIn_of_mem hm _]
      have hd : s.mode = .dec := by simpa [legalModes] using hm
      by_cases h6 : s.cursor.toNat + 6 ≤ s.streamLen.toNat
      · rw [State.chunkRead_of_le h6]
        by_cases hn : s.cursor.toNat + 6 + chunkSize .dnext s ≤ s.streamLen.toNat
        · have hp : s.payloadRead (mem2 s (s.cursor.toNat + 2)) = _ := State.payloadRead_of_le hn
          simp only [hp, ChunkHeader.form]
          split
          · next heq => split at heq <;> (try split at heq) <;> (try split at heq) <;> cases heq
          · exact ⟨_, rfl, .chunkFault _ .badChunkKind rfl hd (by decide) (by decide)⟩
          · exact ⟨_, rfl, .chunkFault _ .badCompression rfl hd (by decide) (by decide)⟩
          · exact runChunk_effect s .dnext rfl rfl _ (fun _ _ h => by rw [rawFrame_error h]; decide)
              (fun _ _ => rawFrame_keeps)
          · exact runChunk_effect s .dnext rfl rfl _ (fun _ _ h => by rw [rleFrame_error h]; decide)
              (fun _ _ => rleFrame_keeps)
        · have hp : s.payloadRead (mem2 s (s.cursor.toNat + 2)) = none := State.payloadRead_of_gt (not_le.1 hn)
          simp only [hp]
          exact ⟨_, rfl, .ended _ rfl hd (Or.inr (not_le.1 hn))⟩
      · rw [State.chunkRead_of_gt (by omega)]
        exact ⟨_, rfl, .ended _ rfl hd (Or.inl (by omega))⟩
    · exact ⟨_, illegal _ hm, .refused _ .badState (by simp [hm]) fun _ => rfl⟩
  | dfin =>
    by_cases hm : s.mode ∈ legalModes .dfin
    · exact ⟨_, State.legalIn_of_mem hm _, .read _ _ hm (by simp)⟩
    · exact ⟨_, illegal _ hm, .refused _ .badState (by simp [hm]) fun _ => rfl⟩
  | drew =>
    by_cases hm : s.mode ∈ legalModes .drew
    · exact ⟨_, State.legalIn_of_mem hm _, .rewound (by simpa [legalModes] using hm)⟩
    · exact ⟨_, illegal _ hm, .refused _ .badState (by simp [hm]) fun _ => rfl⟩
  | rdsr n =>
    by_cases hm : s.mode ∈ legalModes (.rdsr n)
    · rw [show exec (.rdsr n) s = _ from State.legalIn_of_mem hm _]
      cases hr : s.statusRegister n with
      | none => exact ⟨_, rfl, other .badSreg (by decide) rfl hm⟩
      | some v => exact ⟨_, rfl, .read _ v hm (by simp)⟩
    · exact ⟨_, illegal _ hm, .refused _ .badState (by simp [hm]) fun _ => rfl⟩

/-- What an instruction did, if it answered `t`. -/
theorem effect_of_exec {i : Instr} {s t : State} (h : exec i s = .next t) : Effect s i t := by
  obtain ⟨u, hu, he⟩ := exec_effect i s
  rw [h] at hu
  cases hu
  exact he

end Sys2Proof.Machine
end

