-- ==== Sys2Proof/Laws/Encoding.lean ====
section
/-! SUPPORT. The fields of a command word, its unused fields, and operands through their fields. -/

namespace Sys2Proof

/-! ## Fields -/

theorem fieldOp_commandWord (op c : Byte) (a b : Half) : fieldOp (commandWord op c a b) = op := by
  apply BitVec.eq_of_getLsbD_eq
  intro i hi
  have h1 : ¬ 40 + i < 16 := by omega
  have h2 : ¬ 40 + i - 16 < 16 := by omega
  have h3 : ¬ 40 + i - 16 - 16 < 8 := by omega
  have h4 : 40 + i - 16 - 16 - 8 = i := by omega
  simp only [fieldOp, commandWord, BitVec.getLsbD_extractLsb', BitVec.getLsbD_append, h1, h2, h3, h4, hi, if_false, decide_true,
    Bool.true_and]

theorem fieldC_commandWord (op c : Byte) (a b : Half) : fieldC (commandWord op c a b) = c := by
  apply BitVec.eq_of_getLsbD_eq
  intro i hi
  have h1 : ¬ 32 + i < 16 := by omega
  have h2 : ¬ 32 + i - 16 < 16 := by omega
  have h3 : 32 + i - 16 - 16 = i := by omega
  simp only [fieldC, commandWord, BitVec.getLsbD_extractLsb', BitVec.getLsbD_append, h1, h2, h3, hi, if_false, if_true, decide_true,
    Bool.true_and]

theorem fieldA_commandWord (op c : Byte) (a b : Half) : fieldA (commandWord op c a b) = a := by
  apply BitVec.eq_of_getLsbD_eq
  intro i hi
  have h1 : ¬ 16 + i < 16 := by omega
  have h3 : 16 + i - 16 = i := by omega
  simp only [fieldA, commandWord, BitVec.getLsbD_extractLsb', BitVec.getLsbD_append, h1, h3, hi, if_false, if_true, decide_true,
    Bool.true_and]

theorem fieldB_commandWord (op c : Byte) (a b : Half) : fieldB (commandWord op c a b) = b := by
  apply BitVec.eq_of_getLsbD_eq
  intro i hi
  simp only [fieldB, commandWord, BitVec.getLsbD_extractLsb', BitVec.getLsbD_append, hi, if_true, decide_true,
    Bool.true_and, Nat.zero_add]

theorem commandWord_fields (w : Word48) : commandWord (fieldOp w) (fieldC w) (fieldA w) (fieldB w) = w := by
  apply BitVec.eq_of_getLsbD_eq
  intro i hi
  simp only [commandWord, fieldOp, fieldC, fieldA, fieldB, BitVec.getLsbD_append, BitVec.getLsbD_extractLsb']
  by_cases h1 : i < 16
  · simp [h1]
  · by_cases h2 : i - 16 < 16
    · simp only [h1, h2, if_false, if_true, decide_true, Bool.true_and]
      congr 1; omega
    · by_cases h3 : i - 16 - 16 < 8
      · simp only [h1, h2, h3, if_false, if_true, decide_true, Bool.true_and]
        congr 1; omega
      · have h4 : i - 16 - 16 - 8 < 8 := by omega
        simp only [h1, h2, h3, h4, if_false, decide_true, Bool.true_and]
        congr 1; omega

theorem commandWord_and (a1 a2 : Byte) (b1 b2 : Byte) (c1 c2 d1 d2 : Half) :
    commandWord a1 b1 c1 d1 &&& commandWord a2 b2 c2 d2 = commandWord (a1 &&& a2) (b1 &&& b2) (c1 &&& c2) (d1 &&& d2) := by
  apply BitVec.eq_of_getLsbD_eq
  intro i hi
  simp only [commandWord, BitVec.getLsbD_append, BitVec.getLsbD_and]
  split
  · rfl
  · split
    · rfl
    · split <;> rfl

theorem commandWord_eq_zero (op c : Byte) (a b : Half) :
    commandWord op c a b = 0 ↔ op = 0 ∧ c = 0 ∧ a = 0 ∧ b = 0 := by
  constructor
  · intro h
    have h1 := fieldOp_commandWord op c a b
    have h2 := fieldC_commandWord op c a b
    have h3 := fieldA_commandWord op c a b
    have h4 := fieldB_commandWord op c a b
    rw [h] at h1 h2 h3 h4
    exact ⟨h1.symm, h2.symm, h3.symm, h4.symm⟩
  · rintro ⟨rfl, rfl, rfl, rfl⟩; rfl

/-- An unused-field mask as fields: no mask touches `op`. -/
theorem Opcode.unused_eq (o : Opcode) : o.unused = commandWord 0 (fieldC o.unused) (fieldA o.unused) (fieldB o.unused) := by
  cases o <;> decide

/-- The unused fields of a command are zero (`30_encoding.md` R108). -/
def Opcode.unusedZero (o : Opcode) (c : Byte) (a b : Half) : Prop :=
  match o with
  | .gnew => c = 0
  | .gget => c = 0
  | .gset => c = 0 ∨ c = 1
  | .gflip => c = 0
  | .gclr => c = 0 ∧ a = 0 ∧ b = 0
  | .grdb => c = 0
  | .gwrb => True
  | .dinit => c = 0 ∧ a = 0 ∧ b = 0
  | .dnext => c = 0 ∧ a = 0 ∧ b = 0
  | .dfin => c = 0 ∧ a = 0 ∧ b = 0
  | .drew => c = 0 ∧ a = 0 ∧ b = 0
  | .rdsr => c = 0 ∧ a = 0

theorem byte_and_0xFE (c : Byte) : c &&& 0xFE = 0 ↔ c = 0 ∨ c = 1 := by
  revert c; decide

/-- The mask test of the decoder, field by field (`30_encoding.md` R108). -/
theorem commandWord_and_unused (o : Opcode) (c : Byte) (a b : Half) :
    commandWord o.byte c a b &&& o.unused = 0 ↔ o.unusedZero c a b := by
  have all8 : ∀ v : Byte, v &&& 0xFF = v := fun v => BitVec.and_allOnes
  have all16 : ∀ v : Half, v &&& 0xFFFF = v := fun v => BitVec.and_allOnes
  have none8 : ∀ v : Byte, v &&& 0 = 0 := fun v => BitVec.and_zero
  have none16 : ∀ v : Half, v &&& 0 = 0 := fun v => BitVec.and_zero
  have split : ∀ (x : Byte) (y z : Half), o.unused = commandWord 0 x y z →
      (commandWord o.byte c a b &&& o.unused = 0 ↔ c &&& x = 0 ∧ a &&& y = 0 ∧ b &&& z = 0) := fun x y z h => by
    rw [h, commandWord_and, commandWord_eq_zero, none8]
    simp
  cases o
  case gset =>
    rw [split 0xFE 0 0 rfl, none16, none16, byte_and_0xFE]
    simp [Opcode.unusedZero]
  case gwrb =>
    rw [split 0 0 0 rfl, none8, none16, none16]
    simp [Opcode.unusedZero]
  case gclr | dinit | dnext | dfin | drew =>
    rw [split 0xFF 0xFFFF 0xFFFF rfl, all8, all16, all16]
    rfl
  case rdsr =>
    rw [split 0xFF 0xFFFF 0 rfl, all8, all16, none16]
    simp [Opcode.unusedZero]
  all_goals
    rw [split 0xFF 0 0 rfl, all8, none16, none16]
    simp [Opcode.unusedZero]

theorem Opcode.ofByte_byte (o : Opcode) : Opcode.ofByte o.byte = some o := by
  cases o <;> rfl

/-- A byte that names an opcode is that opcode's byte (`30_encoding.md` R105). -/
theorem Opcode.byte_of_ofByte {op : Byte} {o : Opcode} (h : Opcode.ofByte op = some o) : o.byte = op := by
  revert op o
  decide

/-- Decoding a word with a legal opcode, in terms of its fields. -/
theorem decodeCommand_of_unusedZero {o : Opcode} {c : Byte} {a b : Half} (h : o.unusedZero c a b) :
    decodeCommand (commandWord o.byte c a b) = .ok (o.operands (commandWord o.byte c a b)) := by
  unfold decodeCommand
  rw [fieldOp_commandWord, Opcode.ofByte_byte]
  exact if_pos ((commandWord_and_unused o c a b).2 h)

theorem decodeCommand_of_not_unusedZero {o : Opcode} {c : Byte} {a b : Half} (h : ¬ o.unusedZero c a b) :
    decodeCommand (commandWord o.byte c a b) = .error .badField := by
  unfold decodeCommand
  rw [fieldOp_commandWord, Opcode.ofByte_byte]
  exact if_neg (fun hz => h ((commandWord_and_unused o c a b).1 hz))

/-- Decoding, if it answers an instruction: a legal opcode, no unused field set, and that opcode's operands. -/
theorem decodeCommand_ok {w : Word48} {i : Instr} (h : decodeCommand w = .ok i) :
    ∃ o : Opcode, w = commandWord o.byte (fieldC w) (fieldA w) (fieldB w)
      ∧ o.unusedZero (fieldC w) (fieldA w) (fieldB w) ∧ i = o.operands w := by
  unfold decodeCommand at h
  split at h
  · cases h
  · next o ho =>
    split at h
    · next hz =>
      have hw : w = commandWord o.byte (fieldC w) (fieldA w) (fieldB w) := by
        rw [Opcode.byte_of_ofByte ho, commandWord_fields]
      cases h
      refine ⟨o, hw, ?_, rfl⟩
      rw [hw] at hz
      exact (commandWord_and_unused o _ _ _).1 hz
    · cases h

/-! ## Operands -/

/-- A signed operand survives its field (`30_encoding.md` R107). -/
theorem toInt_halfOfInt {x : Int} (h : isSigned16 x = true) : (halfOfInt x).toInt = x := by
  simp only [isSigned16, Bool.and_eq_true, decide_eq_true_eq] at h
  rw [halfOfInt, BitVec.toInt_ofInt]
  exact Int.bmod_eq_of_le (by omega) (by omega)

theorem halfOfInt_toInt (v : Half) : halfOfInt v.toInt = v := BitVec.ofInt_toInt

theorem isSigned16_toInt (v : Half) : isSigned16 v.toInt = true := by
  have h1 := BitVec.le_toInt v
  have h2 := BitVec.toInt_lt (x := v)
  simp only [isSigned16, Bool.and_eq_true, decide_eq_true_eq]
  omega

/-- The two bytes of an unsigned 16-bit field give it back (`20_memory.md` R63). -/
theorem leNat_leBytes_two {n : Nat} (h : n < 65536) : leNat (leBytes 2 n) = n := by
  simp only [leBytes, leNat, BitVec.toNat_ofNat]
  omega

theorem leNat_leBytes_four {n : Nat} (h : n < 4294967296) : leNat (leBytes 4 n) = n := by
  simp only [leBytes, leNat, BitVec.toNat_ofNat]
  omega

theorem length_leBytes (n v : Nat) : (leBytes n v).length = n := by
  induction n generalizing v with
  | zero => rfl
  | succ n ih => simp [leBytes, ih]

/-- The fields of an encoded chunk header (`30_encoding.md` R97). -/
theorem parseChunkHeader_chunkHeaderOf {n comp : Nat} (hn : n < 65536) (hc : comp < 256) (bg : Byte) :
    parseChunkHeader (chunkHeaderOf n comp bg)
      = { kind := 1, payloadSize := n, compression := comp, background := bg } := by
  have h1 : leNat (leBytes 1 comp) = comp := by
    simp only [leBytes, leNat, BitVec.toNat_ofNat]
    omega
  show ({ kind := leNat (leBytes 2 1), payloadSize := leNat (leBytes 2 n), compression := leNat (leBytes 1 comp),
          background := bg } : ChunkHeader) = _
  rw [leNat_leBytes_two hn, h1]
  rfl

end Sys2Proof
end

