-- ==== Sys2Proof/Laws/PerInstr.lean ====
section
/-! SUPPORT. The statements made per instruction, one lemma per constructor. -/

namespace Sys2Proof.Laws.EncodesInItsRow

open Sys2Proof.Machine

/-- The encoding of an instruction matches its row of spec/opcode_table.json and no other form: a command word agrees
with the row's match under its mask; a chunk form is six bytes of kind 1 with its compression tag
(`30_encoding.md` R98, R105, R118). -/
def Statement (i : Instr) : Prop :=
  match encode i, commandRow i with
  | .command w, some row => w &&& row.2 = row.1
  | .chunk bytes, none =>
    bytes.length = 6 ∧ bytes.take 2 = [1, 0]
      ∧ bytes.getD 4 0 = match i with
        | .frameRle _ _ => 1
        | _ => 0
  | _, _ => False

/-- A command word agrees with a row if its four fields do. -/
theorem mask_fields (op c mop mc : Byte) (a b ma mb : Half) (row mask : Word48)
    (hm : mask = commandWord mop mc ma mb)
    (hr : row = commandWord (op &&& mop) (c &&& mc) (a &&& ma) (b &&& mb)) :
    commandWord op c a b &&& mask = row := by
  rw [hm, hr, commandWord_and]

theorem gnew (width height : Int) : Statement (.gnew width height) :=
  mask_fields _ _ 0xFF 0xFF _ _ 0 0 _ _ rfl (by simp; rfl)

theorem gget (x y : Int) : Statement (.gget x y) :=
  mask_fields _ _ 0xFF 0xFF _ _ 0 0 _ _ rfl (by simp; rfl)

theorem gset (x y : Int) (v : Bool) : Statement (.gset x y v) :=
  mask_fields _ _ 0xFF 0xFE _ _ 0 0 _ _ rfl (by cases v <;> simp <;> rfl)

theorem gflip (x y : Int) : Statement (.gflip x y) :=
  mask_fields _ _ 0xFF 0xFF _ _ 0 0 _ _ rfl (by simp; rfl)

theorem gclr : Statement .gclr := mask_fields _ _ 0xFF 0xFF _ _ 0xFFFF 0xFFFF _ _ rfl rfl

theorem grdb (idx : Nat) : Statement (.grdb idx) :=
  mask_fields _ _ 0xFF 0xFF _ _ 0 0 _ _ rfl (by simp; rfl)

theorem gwrb (idx : Nat) (data : Byte) : Statement (.gwrb idx data) :=
  mask_fields _ _ 0xFF 0 _ _ 0 0 _ _ rfl (by simp; rfl)

theorem dinit : Statement .dinit := mask_fields _ _ 0xFF 0xFF _ _ 0xFFFF 0xFFFF _ _ rfl rfl

theorem dnext : Statement .dnext := mask_fields _ _ 0xFF 0xFF _ _ 0xFFFF 0xFFFF _ _ rfl rfl

theorem dfin : Statement .dfin := mask_fields _ _ 0xFF 0xFF _ _ 0xFFFF 0xFFFF _ _ rfl rfl

theorem drew : Statement .drew := mask_fields _ _ 0xFF 0xFF _ _ 0xFFFF 0xFFFF _ _ rfl rfl

theorem rdsr (n : Nat) : Statement (.rdsr n) :=
  mask_fields _ _ 0xFF 0xFF _ _ 0xFFFF 0 _ _ rfl (by simp; rfl)

theorem frameRaw (payloadSize : Nat) (background : Byte) : Statement (.frameRaw payloadSize background) :=
  ⟨rfl, rfl, rfl⟩

theorem frameRle (payloadSize : Nat) (background : Byte) : Statement (.frameRle payloadSize background) :=
  ⟨rfl, rfl, rfl⟩

end Sys2Proof.Laws.EncodesInItsRow
end

