-- ==== Sys2Proof/Laws/Step.lean ====
section
/-! SUPPORT. Everything a step can do, said once; the fields of a response; and that no instruction reads the response
channel. -/

namespace Sys2Proof.Machine

/-- What a step did, if it answered `t`: nothing, RST, a refused word, or the effect of the decoded instruction. -/
theorem step_cases {s t : State} (h : step s = .next t) :
    (s.inputs = [] ∧ t = s)
      ∨ (∃ rest, s.inputs = .rst :: rest ∧ t = (s.withInputs rest).hardReset)
      ∨ (∃ w rest e, s.inputs = .command w :: rest ∧ decodeCommand w = .error e
          ∧ t = (s.withInputs rest).refuse (rejectReason e))
      ∨ (∃ w rest i, s.inputs = .command w :: rest ∧ decodeCommand w = .ok i ∧ Effect (s.withInputs rest) i t) := by
  unfold step fetch at h
  cases hi : s.inputs with
  | nil =>
    simp only [hi] at h
    cases h
    exact Or.inl ⟨rfl, rfl⟩
  | cons x rest =>
    cases x with
    | rst =>
      simp only [hi] at h
      cases h
      exact Or.inr (Or.inl ⟨rest, rfl, rfl⟩)
    | command w =>
      cases hd : decodeCommand w with
      | error e =>
        simp only [hi, hd] at h
        cases h
        exact Or.inr (Or.inr (Or.inl ⟨w, rest, e, rfl, hd, rfl⟩))
      | ok i =>
        simp only [hi, hd] at h
        exact Or.inr (Or.inr (Or.inr ⟨w, rest, i, rfl, hd, effect_of_exec h⟩))

/-- A step on a word that is no instruction. -/
theorem step_of_reject {s : State} {w : Word48} {rest : List HostInput} {e : CommandReject}
    (h : s.inputs = .command w :: rest) (hd : decodeCommand w = .error e) :
    step s = .next ((s.withInputs rest).refuse (rejectReason e)) := by
  unfold step fetch
  simp only [h, hd]

/-! ## The fields of a response -/

theorem responseWord_aux (status : Status) (aux : Byte) (data : Word) :
    (responseWord status aux data).extractLsb' 32 8 = aux := by
  apply BitVec.eq_of_getLsbD_eq
  intro i hi
  have h1 : ¬ 32 + i < 32 := by omega
  have h2 : 32 + i - 32 = i := by omega
  simp only [responseWord, BitVec.getLsbD_extractLsb', BitVec.getLsbD_append, h1, h2, hi, if_false, if_true,
    decide_true, Bool.true_and]

theorem answerStatus_of_rsp {t : State} {status : Status} {aux : Byte} {data : Word}
    (h : t.rsp = some (responseWord status aux data)) : answerStatus t = some status.code.toNat := by
  simp only [answerStatus, h, Option.map_some, responseWord_status]

theorem answerAux_of_rsp {t : State} {status : Status} {aux : Byte} {data : Word}
    (h : t.rsp = some (responseWord status aux data)) : answerAux t = some aux.toNat := by
  simp only [answerAux, h, Option.map_some, responseWord_aux]

/-- Every effect ends in a response with `aux` 0 (`30_encoding.md` R112). -/
theorem Effect.response {s t : State} {i : Instr} (h : Effect s i t) :
    ∃ status data, t.rsp = some (responseWord status 0 data) := by
  cases h <;> exact ⟨_, _, rfl⟩

/-- The parts outside the unit are never written, and the command channel only by the step itself. -/
theorem Effect.outside {s t : State} {i : Instr} (h : Effect s i t) :
    t.inputs = s.inputs ∧ t.params = s.params ∧ t.stream = s.stream ∧ t.smLen = s.smLen := by
  cases h <;> exact ⟨rfl, rfl, rfl, rfl⟩

/-- No instruction reads the response channel. -/
theorem exec_rsp_irrelevant (i : Instr) (s : State) (r : Option Word48) : exec i { s with rsp := r } = exec i s := by
  cases i <;> rfl

/-! ## The status of each way to complete -/

@[simp] theorem Status.code_ok : Status.ok.code = 0 := rfl
@[simp] theorem Status.code_none : Status.none.code = 1 := rfl
@[simp] theorem Status.code_refused : Status.refused.code = 2 := rfl
@[simp] theorem Status.code_fault : Status.fault.code = 3 := rfl

@[simp] theorem answerStatus_respond (s : State) (status : Status) (aux : Byte) (data : Word) :
    answerStatus (s.respond status aux data) = some status.code.toNat := answerStatus_of_rsp rfl

theorem answerStatus_refuse (s : State) (r : Reason) : answerStatus (s.refuse r) = some 2 :=
  answerStatus_respond s .refused 0 _

@[simp] theorem answerStatus_raise (s : State) (f : FaultCode) (addr : Word) : answerStatus (s.raise f addr) = some 3 :=
  answerStatus_of_rsp (status := .fault) (aux := 0) (data := byteData f.code) rfl

@[simp] theorem answerStatus_endOfStream (s : State) : answerStatus s.endOfStream = some 1 :=
  answerStatus_respond _ .none 0 0

@[simp] theorem answerStatus_frameDone (s : State) (n : Nat) (g : Memory) : answerStatus (s.frameDone n g) = some 0 :=
  answerStatus_respond _ .ok _ _

/-! ## DNEXT -/

/-- What DNEXT did: BAD_STATE, end of stream, a fault of the chunk, or a frame (`41_decoder_commands.md` R163). -/
theorem execDnext_cases {s t : State} (h : exec .dnext s = .next t) :
    (s.mode ≠ Mode.dec ∧ t = s.refuse .badState)
      ∨ (s.mode = Mode.dec ∧ t = s.endOfStream)
      ∨ (∃ f, s.mode = Mode.dec ∧ t = s.raiseChunk f ∧ 6 ≤ f.code.toNat ∧ f.code.toNat ≤ 9)
      ∨ (∃ g, s.mode = Mode.dec ∧ t = s.frameDone (chunkSize .dnext s) g
          ∧ s.cursor.toNat + 6 + chunkSize .dnext s ≤ s.streamLen.toNat ∧ g.wf ∧ g.below s.gridBytes) := by
  cases effect_of_exec h with
  | refused i r hr hc =>
    exact Or.inl ⟨fun hm => hr.1 (hc rfl) (by simp [hm, legalModes]), by rw [hc rfl]⟩
  | read i d _ hi => simp at hi
  | cellWritten i x y v hm hw hh hi => simp at hi
  | ended i hc hm => exact Or.inr (Or.inl ⟨hm, rfl⟩)
  | chunkFault i f hc hm h6 h9 => exact Or.inr (Or.inr (Or.inl ⟨_, by assumption, rfl, by assumption, by assumption⟩))
  | frame i g hc hm hl hg hb =>
    exact Or.inr (Or.inr (Or.inr ⟨_, by assumption, rfl, by assumption, by assumption, by assumption⟩))

/-- DNEXT on a complete chunk: its header's form decides (`41_decoder_commands.md` R163). -/
theorem execDnext_of_complete {s : State} (hm : s.mode = Mode.dec) (h : chunkComplete s) :
    exec .dnext s
      = match ChunkHeader.form
          { kind := mem2 s s.cursor.toNat, payloadSize := mem2 s (s.cursor.toNat + 2),
            compression := mem1 s (s.cursor.toNat + 4), background := s.stream.read (s.cursor.toNat + 5) } with
        | .error .truncated => .next s.endOfStream
        | .error .badKind => .next (s.raiseChunk .badChunkKind)
        | .error .badCompression => .next (s.raiseChunk .badCompression)
        | .ok .raw => execFrameRaw (mem2 s (s.cursor.toNat + 2)) (s.stream.read (s.cursor.toNat + 5)) s
        | .ok .rle => execFrameRle (mem2 s (s.cursor.toNat + 2)) (s.stream.read (s.cursor.toNat + 5)) s := by
  show s.legalIn _ _ = _
  rw [State.legalIn_of_mem (by simp [hm]), State.chunkRead_of_le h.1]
  have hp : s.payloadRead (mem2 s (s.cursor.toNat + 2)) = _ := State.payloadRead_of_le h.2
  simp only [hp] <;> rfl

end Sys2Proof.Machine
end

