-- ==== Sys2Proof/Tests/Slice0.lean ====
section
/-! SUPPORT. Small tests against `95_test_vectors.md` (V1 to V99, P1) under its test instantiation T0 and the encodings of
`30_encoding.md`, the well-formedness smoke test, and a witness for the hypotheses of each statement. -/

open Sys2Proof Sys2Proof.Machine

namespace Sys2Proof.Tests

/-! ## Small states -/

/-- The test instantiation T0. -/
def T0 : Params :=
  { supportedVersion := 1, magicTail := #v[0xF0, 0x9F, 0x8E, 0x9E], gridCapBytes := 134213632 }

/-- T0 with a backing store of three bytes (V20, V47). -/
def T3 : Params := { T0 with gridCapBytes := 3 }

/-- Hardware reset under T0. -/
def fresh : State := State.resetWith T0

/-- A stand-alone grid with given buffer bytes. -/
def gridOf (width height : Half) (bytes : List Byte) : State :=
  { fresh with mode := Mode.grid, width := width, height := height, grid := Memory.ofBytes bytes }

/-- `HEADER fc, w, h` under T0, the low bytes of `fc`, `w` and `h` given. -/
def header (fc w h : Byte) : List Byte :=
  [0x42, 0x49, 0x54, 0x56, 0x49, 0x44, 0x45, 0x4F, 0xF0, 0x9F, 0x8E, 0x9E, 1, 0, 0, 0, fc, 0, 0, 0, w, 0, h, 0]
    ++ List.replicate 104 0

/-- Hardware reset under T0 with a stream attached. -/
def boot (bytes : List Byte) : State :=
  { fresh with stream := Memory.ofBytes bytes, smLen := BitVec.ofNat 32 bytes.length }

/-- What DINIT leaves of a `HEADER 1, width, height` followed by the bytes given. -/
def decoder (width height : Byte) (chunks : List Byte) : State :=
  { boot (header 1 width height ++ chunks) with
    mode := Mode.dec
    width := width.setWidth 16
    height := height.setWidth 16
    hdrFrameCount := 1
    streamLen := BitVec.ofNat 32 (128 + chunks.length)
    cursor := 128 }

/-- The chunk of V60. -/
def rawChunk : List Byte := [0x01, 0x00, 0x04, 0x00, 0x00, 0x00, 0x01, 0x02, 0x08, 0x00]

/-- The chunk of V61. -/
def rleChunk : List Byte := [0x01, 0x00, 0x02, 0x00, 0x01, 0x00, 0x1F, 0x01]

/-- The chunk of V68, whose run of 33 passes the last of 32 cells. -/
def overrunChunk : List Byte := [0x01, 0x00, 0x01, 0x00, 0x01, 0x00, 0x21]

/-- The state after fault 7 of a 16 by 2 stream (P4). -/
def faulted : State :=
  { decoder 16 2 [0x01, 0x00, 0x04, 0x00, 0x02, 0x00, 0xAA, 0xBB, 0xCC, 0xDD] with
    mode := Mode.faulted, fault := 7, faultAddr := 128 }

/-- A state with a command word as the host's next and only event. -/
def sent (s : State) (w : Word48) : State := { s with inputs := [.command w] }

/-- The state a result goes to. -/
def after (r : Result) : State :=
  match r with
  | .next t => t
  | .fault _ => fresh
  | .refused _ => fresh

/-- What a result shows: the response word, STATE, CURSOR and the grid bytes. -/
def shows (r : Result) : Option Word48 × Mode × Nat × List Byte :=
  ((after r).rsp, (after r).mode, (after r).cursor.toNat, (List.range (after r).gridBytes).map (after r).gb)

/-- Every instruction answers a next state. -/
theorem exec_after (i : Instr) (s : State) : exec i s = .next (after (exec i s)) := by
  obtain ⟨t, ht, -⟩ := exec_effect i s
  rw [ht]
  rfl

/-- Every step answers a next state. -/
theorem step_after (s : State) : step s = .next (after (step s)) := by
  unfold step
  cases fetch s with
  | idle => rfl
  | done t => rfl
  | run i t => exact exec_after i t

/-! ## Decoding: words written out from the spec -/

/-- `GNEW 3, 2` (V1). -/
theorem test_decode_gnew : decodeCommand 0x010000030002 = .ok (.gnew 3 2) := by decide

/-- `GGET -32768, 32767` (V5). -/
theorem test_decode_gget : decodeCommand 0x020080007FFF = .ok (.gget (-32768) 32767) := by decide

/-- `GSET 4, -1, 1` (V2). -/
theorem test_decode_gset : decodeCommand 0x03010004FFFF = .ok (.gset 4 (-1) true) := by decide

/-- `GFLIP -2, 2` (P1, 4). -/
theorem test_decode_gflip : decodeCommand 0x0400FFFE0002 = .ok (.gflip (-2) 2) := by decide

theorem test_decode_gclr : decodeCommand 0x050000000000 = .ok .gclr := by decide

/-- `GRDB 70000` (V22). -/
theorem test_decode_grdb : decodeCommand 0x060000011170 = .ok (.grdb 70000) := by decide

/-- `GWRB 1, 0xFD` (P1, 6). -/
theorem test_decode_gwrb : decodeCommand 0x07FD00000001 = .ok (.gwrb 1 0xFD) := by decide

theorem test_decode_dinit : decodeCommand 0x100000000000 = .ok .dinit := by decide

theorem test_decode_dnext : decodeCommand 0x110000000000 = .ok .dnext := by decide

theorem test_decode_dfin : decodeCommand 0x120000000000 = .ok .dfin := by decide

theorem test_decode_drew : decodeCommand 0x130000000000 = .ok .drew := by decide

/-- `RDSR 7` (V92). -/
theorem test_decode_rdsr : decodeCommand 0x200000000007 = .ok (.rdsr 7) := by decide

/-- The header of a `FRAME.RAW` of 0x1234 payload bytes, background 0xFF. -/
theorem test_decode_frameRaw : decodeChunk [0x01, 0x00, 0x34, 0x12, 0x00, 0xFF] = .ok (.frameRaw 0x1234 0xFF) := by
  decide

/-- The chunk of V61, its payload after the header. -/
theorem test_decode_frameRle : decodeChunk rleChunk = .ok (.frameRle 2 0) := by decide

/-- Opcode 0x08 (V19), `c` of GSET above 1 (V15), kind 2 (V70), compression 2 (V72), five bytes (V75). -/
theorem test_decode_rejects :
    decodeCommand 0x080000000000 = .error .badOpcode ∧ decodeCommand 0x030300000000 = .error .badField
      ∧ decodeChunk [0x02, 0x00, 0x00, 0x00, 0x00, 0x00] = .error .badKind
      ∧ decodeChunk [0x01, 0x00, 0x04, 0x00, 0x02, 0x00] = .error .badCompression
      ∧ decodeChunk [0x01, 0x00, 0x04, 0x00, 0x00] = .error .truncated := by decide

/-- One ill-formed term for each check of WellFormed. -/
theorem test_illFormed :
    (Instr.gnew 32768 0).wellFormed = false ∧ (Instr.gnew 0 (-32769)).wellFormed = false
      ∧ (Instr.gget 32768 0).wellFormed = false ∧ (Instr.gget 0 32768).wellFormed = false
      ∧ (Instr.gset (-32769) 0 true).wellFormed = false ∧ (Instr.gset 0 32768 true).wellFormed = false
      ∧ (Instr.gflip 32768 0).wellFormed = false ∧ (Instr.gflip 0 (-32769)).wellFormed = false
      ∧ (Instr.grdb 4294967296).wellFormed = false ∧ (Instr.gwrb 4294967296 0).wellFormed = false
      ∧ (Instr.rdsr 65536).wellFormed = false ∧ (Instr.frameRaw 65536 0).wellFormed = false
      ∧ (Instr.frameRle 65536 0).wellFormed = false := by decide

/-! ## One step of each instruction -/

/-- V1. -/
theorem test_gnew : shows (step (sent fresh 0x010000030002)) = (some 0, .grid, 0, [0, 0]) := by decide

/-- V20: 4 bytes do not fit 3. -/
theorem test_gnew_capacity :
    shows (step (sent (State.resetWith T3) 0x010000100002)) = (some 0x020000000007, .unconf, 0, []) := by decide

/-- V5. -/
theorem test_gget_wraps :
    shows (step (sent (gridOf 3 2 [0x00, 0x02]) 0x020080007FFF)) = (some 1, .grid, 0, [0x00, 0x02]) := by decide

/-- V11: column 3 of a 3-wide grid is column 0, not the padding bit. -/
theorem test_gget_padding :
    shows (step (sent (gridOf 3 2 [0xFD, 0x00]) 0x020000030000)) = (some 1, .grid, 0, [0xFD, 0x00]) := by decide

/-- V2. -/
theorem test_gset_wraps :
    shows (step (sent (gridOf 3 2 [0, 0]) 0x03010004FFFF)) = (some 0, .grid, 0, [0x00, 0x02]) := by decide

/-- V12: only bit 2 is cleared. -/
theorem test_gset_clears :
    shows (step (sent (gridOf 3 2 [0xFD, 0]) 0x030000020000)) = (some 1, .grid, 0, [0xF9, 0x00]) := by decide

/-- P1, 4. -/
theorem test_gflip_sets :
    shows (step (sent (gridOf 3 2 [0x00, 0x02]) 0x0400FFFE0002)) = (some 0, .grid, 0, [0x02, 0x02]) := by decide

/-- V7. -/
theorem test_gflip_clears :
    shows (step (sent (gridOf 3 2 [0x00, 0x02]) 0x040000010001)) = (some 1, .grid, 0, [0x00, 0x00]) := by decide

/-- V13. -/
theorem test_gclr : shows (step (sent (gridOf 3 2 [0xF9, 0x01]) 0x050000000000)) = (some 0, .grid, 0, [0, 0]) := by
  decide

/-- V10. -/
theorem test_grdb :
    shows (step (sent (gridOf 3 2 [0xFD, 0]) 0x060000000000)) = (some 0xFD, .grid, 0, [0xFD, 0]) := by decide

/-- V14. -/
theorem test_grdb_badIndex :
    shows (step (sent (gridOf 3 2 [0xFD, 0]) 0x060000000002)) = (some 0x020000000004, .grid, 0, [0xFD, 0]) := by decide

/-- V9. -/
theorem test_gwrb : shows (step (sent (gridOf 3 2 [0, 0]) 0x07FD00000000)) = (some 0, .grid, 0, [0xFD, 0]) := by decide

/-- A byte of zeros replaces what was there (R138). -/
theorem test_gwrb_zero :
    shows (step (sent (gridOf 3 2 [0xFD, 0x02]) 0x070000000001)) = (some 0, .grid, 0, [0xFD, 0]) := by decide

set_option maxRecDepth 4000 in
/-- V40. -/
theorem test_dinit : shows (step (sent (boot (header 0 0 0)) 0x100000000000)) = (some 0, .dec, 128, []) := by decide

set_option maxRecDepth 4000 in
/-- V41: one byte short. -/
theorem test_dinit_short :
    shows (step (sent (boot ((header 0 0 0).take 127)) 0x100000000000)) = (some 0x030000000001, .faulted, 0, []) := by
  decide

/-- V75, the first DNEXT. -/
theorem test_dnext :
    shows (step (sent (decoder 16 2 (rawChunk ++ [0x01, 0x00, 0x04, 0x00, 0x00])) 0x110000000000))
      = (some 1, .dec, 138, [0x01, 0x02, 0x08, 0x00]) := by decide

/-- V77: a truncated chunk of unknown kind and compression is end of stream. -/
theorem test_dnext_truncated :
    shows (step (sent (decoder 16 2 [0x07, 0x00, 0x04, 0x00, 0x09, 0x00, 0x09, 0x09, 0x09]) 0x110000000000))
      = (some 0x010000000000, .dec, 137, [0, 0, 0, 0]) := by decide

/-- V90 and V91: DFIN before and after the only frame. -/
theorem test_dfin :
    (after (exec .dfin (decoder 16 2 rawChunk))).rsp = some 0
      ∧ (after (exec .dfin { decoder 16 2 rawChunk with cursor := 138 })).rsp = some 1 := by decide

/-- V93. -/
theorem test_drew :
    shows (exec .drew { decoder 16 2 rawChunk with cursor := 138, frameId := 1, grid := [(0, 1), (1, 2), (2, 8)] })
      = (some 0, .dec, 128, [0, 0, 0, 0]) := by decide

/-- V92: CURSOR, FRAME_ID and FLAGS. -/
theorem test_rdsr :
    (after (exec (.rdsr 5) { decoder 16 2 rawChunk with cursor := 138, frameId := 1 })).rsp = some 138
      ∧ (after (exec (.rdsr 7) { decoder 16 2 rawChunk with cursor := 138, frameId := 1 })).rsp = some 1
      ∧ (after (exec (.rdsr 11) { decoder 16 2 rawChunk with cursor := 138, frameId := 1 })).rsp = some 1 := by decide

/-- V97 and V95: STRIDE and GRID_BYTES of a 9 by 4 grid, and no register 12. -/
theorem test_rdsr_derived :
    (after (exec (.rdsr 3) (gridOf 9 4 []))).rsp = some 2 ∧ (after (exec (.rdsr 4) (gridOf 9 4 []))).rsp = some 8
      ∧ (after (exec (.rdsr 12) (gridOf 9 4 []))).rsp = some 0x020000000005 := by decide

/-- V81: the payload's padding bits are kept. -/
theorem test_frameRaw :
    shows (exec .dnext (decoder 3 2 [0x01, 0x00, 0x02, 0x00, 0x00, 0x00, 0xFD, 0x02]))
      = (some 1, .dec, 136, [0xFD, 0x02]) := by decide

/-- V73: a raw chunk one byte short of the grid. -/
theorem test_frameRaw_mismatch :
    (after (exec .dnext (decoder 16 2 [0x01, 0x00, 0x03, 0x00, 0x00, 0x00, 0x01, 0x02, 0x03]))).rsp
      = some 0x030000000008 := by decide

/-- V80: a set run crosses a row end, and the scan skips the padding bits. -/
theorem test_frameRle :
    shows (exec .dnext (decoder 5 3 [0x01, 0x00, 0x03, 0x00, 0x01, 0x00, 0x03, 0x04, 0x01]))
      = (some 1, .dec, 137, [0x18, 0x03, 0x00]) := by decide

/-- V69: 31 + 2 cells of 32. -/
theorem test_frameRle_overrun :
    (after (exec .dnext (decoder 16 2 [0x01, 0x00, 0x02, 0x00, 0x01, 0x00, 0x1F, 0x02]))).rsp
      = some 0x030000000009 := by decide

/-! ## Witnesses: states and operands that meet the hypotheses of the statements, clause by clause -/

/-- DecodeInvertsEncode, at the ends of every operand range. -/
theorem witness_wellFormed :
    (Instr.gnew (-32768) 32767).wellFormed = true ∧ (Instr.gset 32767 (-32768) true).wellFormed = true
      ∧ (Instr.gwrb 4294967295 0xFF).wellFormed = true ∧ (Instr.rdsr 65535).wellFormed = true
      ∧ (Instr.frameRle 65535 0xFF).wellFormed = true := by decide

/-- EncodeInvertsDecodeOfCommands. -/
theorem witness_decodes : decodeCommand 0x07FFFFFFFFFF = .ok (.gwrb 4294967295 0xFF) := by decide

/-- CommandWordsDecodeByTheTable, each clause: the opcodes beside the twelve, BAD_FIELD, a match. -/
theorem witness_table :
    (∀ row ∈ commandRows, (0x080000000000 : Word48).extractLsb' 40 8 ≠ row.1.extractLsb' 40 8)
      ∧ (∀ row ∈ commandRows, (0x210000000000 : Word48).extractLsb' 40 8 ≠ row.1.extractLsb' 40 8)
      ∧ (0x030000000000, 0xFFFE00000000) ∈ commandRows
      ∧ (0x030200000000 : Word48).extractLsb' 40 8 = (0x030000000000 : Word48).extractLsb' 40 8
      ∧ (0x030200000000 : Word48) &&& 0xFFFE00000000 ≠ 0x030000000000
      ∧ (0x0301FFFFFFFF : Word48) &&& 0xFFFE00000000 = 0x030000000000 :=
  ⟨by simp [commandRows], by simp [commandRows], by simp [commandRows], by decide, by decide, by decide⟩

/-- StepRunsDecodedCommand, EveryCommandIsAnswered. -/
theorem witness_command :
    (sent fresh 0x010000030002).inputs = [.command 0x010000030002]
      ∧ decodeCommand 0x010000030002 = .ok (.gnew 3 2) := by decide

/-- StepRunsChunkAtCursor: a chunk that ends exactly at the buffer's end. -/
theorem witness_chunkAtCursor :
    (sent (decoder 16 2 rawChunk) 0x110000000000).inputs = [.command 0x110000000000]
      ∧ decodeCommand 0x110000000000 = .ok .dnext ∧ (sent (decoder 16 2 rawChunk) 0x110000000000).mode = Mode.dec
      ∧ chunkComplete (sent (decoder 16 2 rawChunk) 0x110000000000)
      ∧ decodeChunk ((sent (decoder 16 2 rawChunk) 0x110000000000).stream.bytes 128 6) = .ok (.frameRaw 4 0) := by
  unfold chunkComplete
  decide

/-- IllegalWordsAreRefused, each clause. -/
theorem witness_illegalWords :
    (sent faulted (commandWord 0x08 0 0 0)).inputs = [.command (commandWord 0x08 0 0 0)]
      ∧ (0x08 : Byte).toNat ∉ [0x01, 0x02, 0x03, 0x04, 0x05, 0x06, 0x07, 0x10, 0x11, 0x12, 0x13, 0x20]
      ∧ (0x20 : Byte).toNat ∈ [0x01, 0x02, 0x04, 0x05, 0x06, 0x10, 0x11, 0x12, 0x13, 0x20] ∧ (1 : Byte) ≠ 0
      ∧ (0x03 : Byte).toNat = 0x03 ∧ 1 < (2 : Byte).toNat
      ∧ (0x13 : Byte).toNat ∈ [0x05, 0x10, 0x11, 0x12, 0x13] ∧ ((0 : Half) ≠ 0 ∨ (1 : Half) ≠ 0)
      ∧ (0x20 : Byte).toNat = 0x20 ∧ (0x8000 : Half) ≠ 0 := by decide

/-- HardwareResetGivesResetValues: RST from FAULTED, the last register, and an accepted GNEW after it. -/
theorem witness_rst :
    ({ faulted with inputs := [.rst] } : State).inputs = [.rst] ∧ 11 < 12
      ∧ ∃ t u, step { faulted with inputs := [.rst] } = .next t ∧ exec (.gnew 0 7) t = .next u
        ∧ answerStatus u = some 0 :=
  ⟨rfl, by decide, _, _, step_after _, exec_after _ _, by decide⟩

/-- IdleStepChangesNothing. -/
theorem witness_idle : faulted.inputs = [] := rfl

set_option maxRecDepth 4000 in
/-- The invariant holds of a decoder with a chunk ahead: StepKeepsInvariant, CursorMovements. -/
theorem witness_inv : (sent (decoder 16 2 rawChunk) 0x110000000000).Inv where
  dims := by decide
  unconf := by decide
  faulted := by decide
  faultCode := by decide
  faultAddr := by decide
  cursor := by decide
  header := fun _ => ⟨parseHeader ((decoder 16 2 rawChunk).stream.bytes 0 24), by decide, by decide, by decide,
    by decide, by decide⟩
  capacity := by decide
  standAlone := by decide
  frames := by decide
  gridForm := Memory.wf_nil
  gridBelow := fun _ h => nomatch h
  streamForm := Memory.wf_ofBytes _

/-- StepKeepsInvariant. -/
theorem witness_step_inv :
    (sent (decoder 16 2 rawChunk) 0x110000000000).Inv
      ∧ ∃ t, step (sent (decoder 16 2 rawChunk) 0x110000000000) = .next t ∧ t.frameId = 1 :=
  ⟨witness_inv, _, step_after _, by decide⟩

/-- RefusalChangesNothing. -/
theorem witness_refusal :
    (sent (gridOf 3 2 []) 0x010000050005).inputs = [.command 0x010000050005]
      ∧ ∃ t, step (sent (gridOf 3 2 []) 0x010000050005) = .next t ∧ answerStatus t = some 2 :=
  ⟨rfl, _, step_after _, by decide⟩

/-- LegalityByState, both clauses, with an answer of the legal one. -/
theorem witness_legality :
    Mode.dec ∉ legalModes (.gset 0 0 true) ∧ (decoder 16 2 []).mode = Mode.dec ∧ Mode.dec ∈ legalModes (.gget 0 0)
      ∧ ∃ t, exec (.gget 0 0) (decoder 16 2 []) = .next t :=
  ⟨by decide, rfl, by decide, _, exec_after _ _⟩

/-- FaultedIsLeftOnlyByReset, each clause. -/
theorem witness_faulted :
    faulted.mode = Mode.faulted ∧ (∀ n, Instr.drew ≠ .rdsr n)
      ∧ (∃ t, step (sent faulted 0x130000000000) = .next t)
      ∧ (sent faulted 0x130000000000).inputs.head? ≠ some .rst
      ∧ ({ faulted with inputs := [.rst] } : State).inputs = [.rst] :=
  ⟨rfl, fun _ => nofun, ⟨_, step_after _⟩, by decide, rfl⟩

/-- DimensionsAreWrittenOnce. -/
theorem witness_dimensions :
    ∃ t, exec (.gnew 3 2) fresh = .next t ∧ (t.width ≠ fresh.width ∨ t.height ≠ fresh.height) :=
  ⟨_, exec_after _ _, by decide⟩

set_option maxRecDepth 4000 in
/-- CursorMovements and StateTransitions, each clause: DINIT, DREW, an OK and a NONE of DNEXT, an answer that moves
nothing, a fault of DINIT and of DNEXT, GNEW. -/
theorem witness_answers :
    answerStatus (after (exec .dinit (boot (header 0 0 0)))) = some 0
      ∧ answerStatus (after (exec .drew (decoder 16 2 rawChunk))) = some 0
      ∧ answerStatus (after (exec .dnext (decoder 16 2 rawChunk))) = some 0
      ∧ answerStatus (after (exec .dnext (decoder 16 2 []))) = some 1
      ∧ answerStatus (after (exec .gclr (gridOf 3 2 []))) = some 0
      ∧ answerStatus (after (exec .dinit (boot []))) = some 3
      ∧ answerStatus (after (exec .dnext (decoder 16 2 overrunChunk))) = some 3
      ∧ answerStatus (after (exec (.gnew 3 2) fresh)) = some 0 := by decide

/-- StateTransitions, the clauses on steps. -/
theorem witness_steps :
    fresh.inputs = [] ∧ ({ faulted with inputs := [.rst] } : State).inputs = [.rst]
      ∧ (sent fresh 0).inputs = [.command 0] ∧ decodeCommand 0 = .error .badOpcode := by decide

/-- ResponseStatusByCommand, each clause. -/
theorem witness_statuses :
    answerStatus (after (exec .dnext (decoder 16 2 []))) = some 1
      ∧ answerStatus (after (exec .dnext (decoder 16 2 overrunChunk))) = some 3
      ∧ (after (exec .dnext (decoder 16 2 overrunChunk))).mode = Mode.faulted
      ∧ (decoder 16 2 overrunChunk).mode ≠ Mode.faulted := by decide

/-- OnlyDinitSamplesStreamLength. -/
theorem witness_notDinit : Instr.dnext ≠ .dinit := by decide

/-- ReservedHeaderBytesAreIgnored. -/
theorem witness_reserved : 24 ≤ 24 ∧ 24 ≤ 127 := by decide

/-- GnewCreatesGrid, each clause: the largest grid exactly at capacity, a negative width, one byte too many, a grid of
no cells, a grid that exists. -/
theorem witness_gnew :
    fresh.mode = Mode.unconf ∧ (0 : Int) ≤ 32767 ∧ (32767 : Int) ≤ 32767
      ∧ ((32767 : Int).toNat + 7) / 8 * (32767 : Int).toNat ≤ fresh.params.gridCapBytes.val
      ∧ (-1 : Int) < 0 ∧ (State.resetWith T3).mode = Mode.unconf
      ∧ (State.resetWith T3).params.gridCapBytes.val < ((16 : Int).toNat + 7) / 8 * (2 : Int).toNat
      ∧ (1 : Byte) ≠ 0 ∧ (gridOf 3 2 []).mode ≠ Mode.unconf := by decide

/-- GgetReadsCell, GrdbReadsByte, GetIsABitOfTheByteRead, each clause, in GRID and in DEC. -/
theorem witness_reads :
    (gridOf 1 1 [1]).mode = Mode.grid ∧ 0 < (gridOf 1 1 [1]).width.toNat ∧ 0 < (gridOf 1 1 [1]).height.toNat
      ∧ (decoder 16 2 []).mode = Mode.dec ∧ 3 < (decoder 16 2 []).gridBytes ∧ (decoder 16 2 []).gridBytes ≤ 4
      ∧ (gridOf 0 7 []).mode = Mode.grid ∧ (gridOf 0 7 []).width.toNat = 0 ∧ (gridOf 7 0 []).height.toNat = 0
      ∧ faulted.mode ≠ Mode.grid ∧ faulted.mode ≠ Mode.dec := by decide

/-- GsetWritesCell, GflipTogglesCell, GclrClearsGrid, GwrbWritesByte, GetAfterSet, FlipTwiceRestoresBuffer, each clause;
the last cell of the last byte. -/
theorem witness_writes :
    (gridOf 9 4 [1]).mode = Mode.grid ∧ 0 < (gridOf 9 4 [1]).width.toNat ∧ 0 < (gridOf 9 4 [1]).height.toNat
      ∧ 7 < (gridOf 9 4 [1]).gridBytes ∧ (gridOf 9 4 [1]).gridBytes ≤ 8
      ∧ 0 < 8 ∧ 8 * (7 % (gridOf 9 4 [1]).stride) + 0 < (gridOf 9 4 [1]).width.toNat
      ∧ Memory.wf (gridOf 9 4 [1]).grid ∧ (gridOf 0 7 []).width.toNat = 0 ∧ (gridOf 7 0 []).height.toNat = 0
      ∧ (decoder 16 2 []).mode ≠ Mode.grid ∧ 1 < (2 : Byte).toNat := by decide

/-- WrappingIsEuclidean and CellsLieInTheBuffer, at the largest grid. -/
theorem witness_largestGrid :
    0 < (gridOf 32767 32767 []).width.toNat ∧ 0 < (gridOf 32767 32767 []).height.toNat
      ∧ (gridOf 32767 32767 []).width.toNat ≤ 32767 ∧ (gridOf 32767 32767 []).height.toNat ≤ 32767 := by decide

/-- GridCommandsLeaveTheDecoder. -/
theorem witness_gridCommand :
    isGridCommand (.gflip 0 0) = true ∧ (∀ w h, Instr.gflip 0 0 ≠ .gnew w h)
      ∧ ∃ t, exec (.gflip 0 0) (gridOf 3 2 []) = .next t :=
  ⟨rfl, fun _ _ => nofun, _, exec_after _ _⟩

/-- ClearedGridReadsZero, after each of the two commands: the last byte of the grid. -/
theorem witness_cleared :
    (∃ t, exec (.gnew 3 2) fresh = .next t ∧ answerStatus t = some 0 ∧ 0 < t.width.toNat ∧ 0 < t.height.toNat
        ∧ 1 < t.gridBytes ∧ t.gridBytes ≤ 2)
      ∧ ∃ t, exec .gclr (gridOf 3 2 [0xFD, 0x02]) = .next t ∧ answerStatus t = some 0 ∧ 0 < t.width.toNat
        ∧ 0 < t.height.toNat ∧ 1 < t.gridBytes :=
  ⟨⟨_, exec_after _ _, by decide⟩, _, exec_after _ _, by decide⟩

/-- PaddingBitsAreNoCells, each clause: the first and the last padding bit of a 3-wide row, and a run-length frame. -/
theorem witness_padding :
    1 < (gridOf 3 2 [0xFD]).height.toNat ∧ 7 < 8
      ∧ (gridOf 3 2 [0xFD]).width.toNat ≤ 8 * ((gridOf 3 2 [0xFD]).stride - 1) + 3
      ∧ (∃ t, exec (.gset 2 0 true) (gridOf 3 2 [0xFD]) = .next t)
      ∧ (∃ t, exec (.gflip 2 0) (gridOf 3 2 [0xFD]) = .next t)
      ∧ ∃ t, exec (.frameRle 1 0) (decoder 3 2 [0x01, 0x00, 0x01, 0x00, 0x01, 0x00, 0x06]) = .next t
        ∧ answerStatus t = some 0 :=
  ⟨by decide, by decide, by decide, ⟨_, exec_after _ _⟩, ⟨_, exec_after _ _⟩, _, exec_after _ _, by decide⟩

/-- MemReadIsLittleEndian, each clause, at the end of a 128-byte buffer. -/
theorem witness_memRead :
    127 + 1 ≤ (decoder 0 0 []).streamLen.toNat ∧ 126 + 2 ≤ (decoder 0 0 []).streamLen.toNat
      ∧ 124 + 4 ≤ (decoder 0 0 []).streamLen.toNat ∧ (decoder 0 0 []).streamLen.toNat < 125 + 4 := by decide

set_option maxRecDepth 4000 in
/-- DinitConstructsDecoder, the accepted header: a grid exactly at capacity. -/
theorem witness_dinit :
    (boot (header 1 16 2)).mode = Mode.unconf ∧ 128 ≤ (boot (header 1 16 2)).smLen.toNat
      ∧ (∀ k, k < 12 → (boot (header 1 16 2)).stream.read k = T0.magic.getD k 0)
      ∧ mem4 (boot (header 1 16 2)) 12 = T0.supportedVersion.toNat
      ∧ mem2 (boot (header 1 16 2)) 20 ≤ 32767 ∧ mem2 (boot (header 1 16 2)) 22 ≤ 32767
      ∧ (mem2 (boot (header 1 16 2)) 20 + 7) / 8 * mem2 (boot (header 1 16 2)) 22 ≤ 4
      ∧ (decoder 16 2 []).mode ≠ Mode.unconf := by decide

set_option maxRecDepth 4000 in
/-- DinitConstructsDecoder, each fault: 127 bytes; byte 11 changed; version 2; width 32768 (V41 to V45); CAPACITY with
three bytes (V47). -/
theorem witness_dinit_faults :
    (boot ((header 0 0 0).take 127)).smLen.toNat < 128
      ∧ (boot ((header 0 0 0).set 11 0x9F)).stream.read 11 ≠ T0.magic.getD 11 0
      ∧ mem4 (boot ((header 0 0 0).set 12 2)) 12 ≠ T0.supportedVersion.toNat
      ∧ 32767 < mem2 (boot ((header 0 0 1).set 21 0x80)) 20
      ∧ T3.gridCapBytes.val < (mem2 (boot (header 1 16 2)) 20 + 7) / 8 * mem2 (boot (header 1 16 2)) 22 := by decide

/-- EndOfStreamIsAnAnswer and DnextFetchesTheChunk: five bytes left (P5); a payload one byte short (V76). -/
theorem witness_endOfStream :
    (decoder 16 2 (rawChunk.take 5)).mode = Mode.dec
      ∧ (decoder 16 2 (rawChunk.take 5)).streamLen.toNat < (decoder 16 2 (rawChunk.take 5)).cursor.toNat + 6
      ∧ (decoder 16 2 (rawChunk.take 9)).streamLen.toNat
        < (decoder 16 2 (rawChunk.take 9)).cursor.toNat + 6 + mem2 (decoder 16 2 (rawChunk.take 9)) 130
      ∧ ¬ chunkComplete (decoder 16 2 (rawChunk.take 9)) := by
  unfold chunkComplete
  decide

/-- DnextFetchesTheChunk, each clause on a complete chunk: V70, V72, V60, V61, and a state outside DEC. -/
theorem witness_dnext :
    chunkComplete (decoder 16 2 [0x02, 0x00, 0x00, 0x00, 0x00, 0x00])
      ∧ mem2 (decoder 16 2 [0x02, 0x00, 0x00, 0x00, 0x00, 0x00]) 128 ≠ 1
      ∧ chunkComplete (decoder 16 2 [0x01, 0x00, 0x00, 0x00, 0x02, 0x00])
      ∧ 2 ≤ mem1 (decoder 16 2 [0x01, 0x00, 0x00, 0x00, 0x02, 0x00]) 132
      ∧ chunkComplete (decoder 16 2 rawChunk) ∧ mem2 (decoder 16 2 rawChunk) 128 = 1
      ∧ mem1 (decoder 16 2 rawChunk) 132 = 0
      ∧ chunkComplete (decoder 16 2 rleChunk) ∧ mem2 (decoder 16 2 rleChunk) 128 = 1
      ∧ mem1 (decoder 16 2 rleChunk) 132 = 1
      ∧ answerStatus (after (exec .dnext (decoder 16 2 rawChunk))) = some 0 ∧ faulted.mode ≠ Mode.dec := by
  unfold chunkComplete
  decide

/-- DnextDecodesAFrame, both forms; the runs of V61 fill the grid exactly. -/
theorem witness_frame :
    (decoder 16 2 rawChunk).mode = Mode.dec ∧ mem2 (decoder 16 2 rawChunk) 130 = (decoder 16 2 rawChunk).gridBytes
      ∧ runTotal ((decoder 16 2 rleChunk).stream.bytes 134 (mem2 (decoder 16 2 rleChunk) 130)) = 16 * 2 := by decide

/-- FrameRawCopiesPayload, FrameRleDrawsRuns and FrameRleOverrunFaults, each clause (V60, V73, V61, V68). -/
theorem witness_chunks :
    (decoder 16 2 rawChunk).cursor.toNat + 6 + 4 ≤ (decoder 16 2 rawChunk).streamLen.toNat
      ∧ 4 = (decoder 16 2 rawChunk).gridBytes ∧ 3 ≠ (decoder 16 2 rawChunk).gridBytes
      ∧ (decoder 16 2 rleChunk).cursor.toNat + 6 + 2 ≤ (decoder 16 2 rleChunk).streamLen.toNat
      ∧ runTotal ((decoder 16 2 rleChunk).stream.bytes 134 2) ≤ 16 * 2
      ∧ (decoder 16 2 overrunChunk).cursor.toNat + 6 + 1 ≤ (decoder 16 2 overrunChunk).streamLen.toNat
      ∧ 16 * 2 < runTotal ((decoder 16 2 overrunChunk).stream.bytes 134 1) := by decide

/-- ChunkFormsPastTheEnd: a payload one byte too long. -/
theorem witness_pastTheEnd :
    (decoder 16 2 rawChunk).mode = Mode.dec
      ∧ (decoder 16 2 rawChunk).streamLen.toNat < (decoder 16 2 rawChunk).cursor.toNat + 6 + 5 := by decide

/-- FrameRleDrawsRuns, its last clause: bit 3 of a 3-wide row is no cell. -/
theorem witness_noCell (x y : Nat) (hx : x < 3) : ¬ (0 = x / 8 + y * (gridOf 3 2 []).stride ∧ 3 = x % 8) := by
  rintro ⟨-, h⟩
  omega

/-- ChunkFaultsArePrecise. -/
theorem witness_chunkFault :
    runsChunk .dnext = true ∧ (decoder 16 2 overrunChunk).mode = Mode.dec
      ∧ ∃ t, exec .dnext (decoder 16 2 overrunChunk) = .next t ∧ t.mode = Mode.faulted :=
  ⟨rfl, rfl, _, exec_after _ _, by decide⟩

/-- ExhaustionIsForEver, FrameIgnoresEarlierGrid. -/
theorem witness_nextFrames :
    (∃ t, exec .dnext (decoder 16 2 []) = .next t ∧ answerStatus t = some 1)
      ∧ ∃ t, exec .dnext (decoder 16 2 rawChunk) = .next t ∧ answerStatus t = some 0 :=
  ⟨⟨_, exec_after _ _, by decide⟩, _, exec_after _ _, by decide⟩

/-- FrameIdsAreSequential. -/
theorem witness_ids :
    (decoder 16 2 rawChunk).frameId = 0 ∧ 0 < 1 ∧ 1 < 4294967296
      ∧ ∃ t, okDnexts 1 (decoder 16 2 rawChunk) = some t :=
  ⟨rfl, by decide, by decide, Option.isSome_iff_exists.1 (by decide)⟩

set_option maxRecDepth 4000 in
/-- RewindRestoresConstruction: one DNEXT after DINIT (V94). -/
theorem witness_replay :
    (boot (header 1 16 2 ++ rawChunk)).mode = Mode.unconf
      ∧ ∃ t u, exec .dinit (boot (header 1 16 2 ++ rawChunk)) = .next t ∧ t.mode = Mode.dec
        ∧ dnexts 1 t = some u ∧ u.mode = Mode.dec := by
  have h : (dnexts 1 (after (exec .dinit (boot (header 1 16 2 ++ rawChunk))))).map State.mode = some Mode.dec := by
    decide
  obtain ⟨u, hu, hm⟩ := Option.map_eq_some_iff.1 h
  exact ⟨rfl, _, u, exec_after _ _, by decide, hu, hm⟩

/-- DrainingTerminates, its last clause too; DfinReportsTheEnd, DrewRewinds. -/
theorem witness_drain :
    (decoder 16 2 rawChunk).mode = Mode.dec ∧ (decoder 16 2 rawChunk).cursor = 128
      ∧ (drain ((138 - 128) / 6 + 1) (decoder 16 2 rawChunk)).map State.mode = some Mode.dec
      ∧ (decoder 16 2 rawChunk).frameId = 0 ∧ (decoder 16 2 rawChunk).grid = [] ∧ faulted.mode ≠ Mode.dec := by
  decide

/-- The pseudo-commands are the words of their expansions (R117). -/
theorem test_pseudo :
    decodeCommand 0x030100020001 = .ok (gset1 2 1) ∧ decodeCommand 0x030000020001 = .ok (gset0 2 1)
      ∧ decodeCommand 0x200000000000 = .ok stat := by decide

/-- RdsrReadsStatusRegisters. -/
theorem witness_rdsr : 11 < 12 ∧ ((0 : Byte) ≠ 0 ∨ (1 : Half) ≠ 0) := by decide

/-- The 2 by 2 frame of V23, whose chunk is raw. -/
def frame23 : HostFrame := { width := 2, height := 2, bytes := [0x00, 0x02] }

/-- The 16 by 2 frame of V27, whose chunk is run-length. -/
def frame27 : HostFrame := { width := 16, height := 2, bytes := [0x00, 0x00, 0x00, 0x80] }

/-- RunsRoundTrip. -/
theorem witness_runsFit : frame27.runsFit := by
  unfold HostFrame.runsFit
  decide

/-- V23 and V27: the chunks the reference encoder makes. -/
theorem test_encoder :
    frame23.chunk = [0x01, 0x00, 0x02, 0x00, 0x00, 0x00, 0x00, 0x02] ∧ frame27.runs = [0x1F, 0x01]
      ∧ frame27.chunk = [0x01, 0x00, 0x02, 0x00, 0x01, 0x00, 0x1F, 0x01] := by decide

set_option maxRecDepth 4000 in
/-- StreamRoundTrip, the stream of one frame. -/
theorem witness_stream :
    Params.encodeFrames T0 [frame27] = some (header 1 16 2 ++ rleChunk) ∧ (header 1 16 2 ++ rleChunk).length < 4294967296
      ∧ (∀ f ∈ [frame27], gridBytesOf f.width f.height ≤ T0.gridCapBytes.val)
      ∧ (∀ f ∈ [frame27], f.runsFit ∨ f.chunk = f.raw) ∧ [frame27][0]? = some frame27 :=
  ⟨by decide, by decide, by decide, fun f hf => Or.inl (by rw [List.mem_singleton.1 hf]; exact witness_runsFit), rfl⟩

end Sys2Proof.Tests
end

section
/-! PROOFS. Hardware reset (`10_state.md` R45): what a step that takes RST leaves, and what the commands find there. -/

namespace Sys2Proof.Machine

/-! ## Reasoning rules -/

/-- A step that takes RST (`70_reset_and_hazards.md` R260). -/
theorem step_of_rst {s : State} {rest : List HostInput} (h : s.inputs = .rst :: rest) :
    step s = .next (s.withInputs rest).hardReset := by
  unfold step fetch
  simp only [h]

/-- Every instruction opens with its check of STATE: where it is not legal it is refused BAD_STATE
(`30_encoding.md` R106). -/
theorem exec_of_not_legal {s : State} {i : Instr} (h : s.mode ∉ legalModes i) :
    exec i s = .next (refusedWith s 3) := by
  have hs : exec i s = .next (s.refuse .badState) := by
    cases i <;> exact State.legalIn_of_not_mem h _
  rw [hs, refuse_eq_refusedWith]
  rfl

/-- RDSR answers the register it names, in every STATE (`41_decoder_commands.md` R169). -/
theorem execRdsr_of_statusRegister {s : State} {n : Nat} {v : Word} (h : s.statusRegister n = some v) :
    exec (.rdsr n) s = .next { s with rsp := some (rsp48 0 0 v.toNat) } := by
  have hm : s.mode ∈ legalModes (.rdsr n) := by cases s.mode <;> simp [legalModes]
  have he : exec (.rdsr n) s = .next (s.answer v) := by
    rw [show exec (.rdsr n) s = _ from State.legalIn_of_mem hm _]
    simp only [h]
  rw [he, answer_eq_rsp48]

/-- An accepted GNEW or DINIT leaves a grid of zeros, whatever the backing store held (`40_grid_commands.md` R132,
`41_decoder_commands.md` R161). -/
theorem grid_of_gnew_or_dinit_ok {s u : State} {i : Instr} (hi : (∃ w h, i = .gnew w h) ∨ i = .dinit)
    (hu : exec i s = .next u) (hok : answerStatus u = some 0) : u.grid = [] := by
  cases effect_of_exec hu with
  | created | constructed => rfl
  | refused | notConstructed => simp at hok
  | cleared | byteWritten | rewound => simp at hi
  | read _ _ _ hr | cellWritten _ _ _ _ _ _ _ hr => rcases hi with ⟨_, _, rfl⟩ | rfl <;> simp at hr
  | ended _ hc | chunkFault _ _ hc | frame _ _ hc => rcases hi with ⟨_, _, rfl⟩ | rfl <;> cases hc

/-! ## The registers after reset -/

/-- Without columns a row takes no byte: `STRIDE = ceil(0 / 8)`. -/
theorem State.hardReset_stride (s : State) : s.hardReset.stride = 0 := by
  simp [State.stride, strideOf]

/-- UNCONF is not DEC, so FINISHED is 0 although CURSOR and STREAM_LEN are equal (`10_state.md` R36). -/
theorem State.hardReset_flags (s : State) : s.hardReset.flags = 0 := by
  simp [State.flags, State.finished, State.bg]

/-- All twelve status registers, the derived ones too, read 0 after hardware reset (`10_state.md` R30, R45). -/
theorem State.hardReset_statusRegister (s : State) {n : Nat} (hn : n < 12) :
    s.hardReset.statusRegister n = some 0#32 := by
  match n with
  | 0 | 1 | 2 | 4 | 5 | 6 | 7 | 8 | 9 | 10 => rfl
  | 3 => simp [State.statusRegister, State.hardReset_stride]
  | 11 => simp [State.statusRegister, State.hardReset_flags]
  | _ + 12 => omega

/-- Settles O9: RST leads to `hardReset`, where RDSR finds 0 everywhere, the reads of the grid are not legal, and both
commands that create a grid clear it, whatever it held. -/
theorem hardwareResetGivesResetValues : Obligations.HardwareResetGivesResetValues := by
  intro s rest hin
  refine ⟨_, step_of_rst hin, rfl, rfl, rfl, rfl, rfl, rfl, rfl, rfl, rfl, rfl, ?registers, ?bytes, ?cells, ?zeros⟩
  case registers =>
    intro n hn
    rw [execRdsr_of_statusRegister (State.hardReset_statusRegister _ hn), BitVec.toNat_zero]
  case bytes => exact fun idx => exec_of_not_legal (by simp [legalModes])
  case cells => exact fun x y => exec_of_not_legal (by simp [legalModes])
  case zeros =>
    intro i u hi hu hok a
    rw [grid_of_gnew_or_dinit_ok hi hu hok, Memory.read_nil]

end Sys2Proof.Machine
end

section
/-! PROOFS. Illegal command words (`30_encoding.md` R108, R109): which reason each gets, and that a step on one only
answers it. -/

namespace Sys2Proof

/-! ## Opcode bytes -/

/-- The bytes that name an opcode are the twelve of R105; every other byte is illegal (R109). -/
theorem Opcode.ofByte_eq_none_of_not_mem {op : Byte}
    (h : op.toNat ∉ [0x01, 0x02, 0x03, 0x04, 0x05, 0x06, 0x07, 0x10, 0x11, 0x12, 0x13, 0x20]) :
    Opcode.ofByte op = none := by
  cases ho : Opcode.ofByte op with
  | none => rfl
  | some o =>
    rw [← Opcode.byte_of_ofByte ho] at h
    cases o <;> exact absurd (by decide) h

/-- A byte whose number is among the numbers of some opcodes is the byte of one of them. -/
theorem Opcode.exists_of_byte_mem {op : Byte} {os : List Opcode} (h : op.toNat ∈ os.map fun o => o.byte.toNat) :
    ∃ o ∈ os, op = o.byte := by
  obtain ⟨o, ho, hb⟩ := List.mem_map.1 h
  exact ⟨o, ho, (BitVec.eq_of_toNat_eq hb).symm⟩

/-! ## Unused fields -/

/-- Every command but GSET and GWRB leaves all of field `c` unused (`30_encoding.md` R108). -/
theorem Opcode.unusedZero_c {o : Opcode} {c : Byte} {a b : Half} (h : o.unusedZero c a b)
    (ho : o ∈ [.gnew, .gget, .gflip, .gclr, .grdb, .dinit, .dnext, .dfin, .drew, .rdsr]) : c = 0 := by
  cases o
  case gset | gwrb => simp at ho
  case gnew | gget | gflip | grdb => exact h
  case gclr | dinit | dnext | dfin | drew | rdsr => exact h.1

/-- The commands without operands leave fields `a` and `b` unused (`30_encoding.md` R108). -/
theorem Opcode.unusedZero_ab {o : Opcode} {c : Byte} {a b : Half} (h : o.unusedZero c a b)
    (ho : o ∈ [.gclr, .dinit, .dnext, .dfin, .drew]) : a = 0 ∧ b = 0 := by
  cases o
  case gclr | dinit | dnext | dfin | drew => exact h.2
  all_goals simp at ho

end Sys2Proof

namespace Sys2Proof.Machine

/-! ## Steps on illegal words -/

section
variable {s : State} {rest : List HostInput}

/-- A word without a legal opcode is refused BAD_OPCODE (`30_encoding.md` R109). -/
theorem step_of_badOpcode {w : Word48} (h : s.inputs = .command w :: rest) (ho : Opcode.ofByte (fieldOp w) = none) :
    step s = .next (refusedWith { s with inputs := rest } 1) := by
  have hd : decodeCommand w = .error .badOpcode := by simp only [decodeCommand, ho]
  rw [step_of_reject h hd, refuse_eq_refusedWith]
  rfl

/-- A word with a legal opcode and an unused field set is refused BAD_FIELD (`30_encoding.md` R108). -/
theorem step_of_not_unusedZero {o : Opcode} {c : Byte} {a b : Half}
    (h : s.inputs = .command (commandWord o.byte c a b) :: rest) (hu : ¬ o.unusedZero c a b) :
    step s = .next (refusedWith { s with inputs := rest } 2) := by
  rw [step_of_reject h (decodeCommand_of_not_unusedZero hu), refuse_eq_refusedWith]
  rfl

end

/-- Settles O8: the first clause is the opcode check, each of the others names opcodes and a field that they leave
unused. -/
theorem illegalWordsAreRefused : Obligations.IllegalWordsAreRefused := by
  intro s op c a b rest hin
  refine ⟨fun hop => ?opcode, fun hop hc => ?fieldC, fun hop hc => ?gset, fun hop hab => ?fieldsAB, fun hop ha => ?rdsr⟩
  case opcode =>
    exact step_of_badOpcode hin (by rw [fieldOp_commandWord]; exact Opcode.ofByte_eq_none_of_not_mem hop)
  case fieldC =>
    obtain ⟨o, ho, rfl⟩ := Opcode.exists_of_byte_mem
      (os := [.gnew, .gget, .gflip, .gclr, .grdb, .dinit, .dnext, .dfin, .drew, .rdsr]) hop
    exact step_of_not_unusedZero hin fun hu => hc (Opcode.unusedZero_c hu ho)
  case gset =>
    obtain rfl : op = Opcode.gset.byte := BitVec.eq_of_toNat_eq hop
    refine step_of_not_unusedZero hin ?_
    rintro (rfl | rfl) <;> simp at hc
  case fieldsAB =>
    obtain ⟨o, ho, rfl⟩ := Opcode.exists_of_byte_mem (os := [.gclr, .dinit, .dnext, .dfin, .drew]) hop
    refine step_of_not_unusedZero hin fun hu => ?_
    obtain ⟨ha, hb⟩ := Opcode.unusedZero_ab hu ho
    exact hab.elim (· ha) (· hb)
  case rdsr =>
    obtain rfl : op = Opcode.rdsr.byte := BitVec.eq_of_toNat_eq hop
    exact step_of_not_unusedZero hin fun ⟨_, hu⟩ => ha hu

end Sys2Proof.Machine
end

section
/-! PROOFS. Reasoning rules for the grid commands (`40_grid_commands.md`): how their words decode, what each check
answers, and the whole state each accepted command leaves. -/

namespace Sys2Proof

/-! ## Operands of a command word (`30_encoding.md` R107) -/

@[simp] theorem signedA_commandWord (op c : Byte) (a b : Half) : signedA (commandWord op c a b) = a.toInt :=
  congrArg BitVec.toInt (fieldA_commandWord op c a b)

@[simp] theorem signedB_commandWord (op c : Byte) (a b : Half) : signedB (commandWord op c a b) = b.toInt :=
  congrArg BitVec.toInt (fieldB_commandWord op c a b)

@[simp] theorem byteIndexAB_commandWord (op c : Byte) (a b : Half) :
    byteIndexAB (commandWord op c a b) = a.toNat * 65536 + b.toNat := by
  rw [byteIndexAB, fieldA_commandWord, fieldB_commandWord]

end Sys2Proof

namespace Sys2Proof.Machine

/-! ## Response data as numbers (`30_encoding.md` R113) -/

@[simp] theorem toNat_bitData (b : Bool) : (bitData b).toNat = b.toNat := by cases b <;> rfl

@[simp] theorem toNat_byteData (b : Byte) : (byteData b).toNat = b.toNat :=
  BitVec.toNat_setWidth_of_le (by decide)

/-! ## Cells -/

/-- The model's cell is the bit that R22 and R23 of `10_state.md` name. -/
theorem State.cell_eq_cellBit (s : State) (x y : Nat) : s.cell x y = cellBit s x y :=
  readCell_eq_getLsbD s.stride s.grid x y

/-- A byte of the buffer holds eight neighbouring columns of one row, its bit `k` the `k`-th of them
(`40_grid_commands.md` R138). -/
theorem cellBit_of_byte (s : State) (idx : Nat) {k : Nat} (hk : k < 8) :
    cellBit s (8 * (idx % s.stride) + k) (idx / s.stride) = (s.grid.read idx).getLsbD k := by
  have hbyte : (8 * (idx % s.stride) + k) / 8 = idx % s.stride := by omega
  have hbit : (8 * (idx % s.stride) + k) % 8 = k := by omega
  have hidx : idx % s.stride + idx / s.stride * ((s.width.toNat + 7) / 8) = idx := Nat.mod_add_div' idx s.stride
  rw [cellBit, hbyte, hbit, hidx]

/-- A cell write leaves every byte but the cell's as it was. -/
theorem read_writeCell_of_ne {stride x y a : Nat} (h : a ≠ byteIndex stride x y) (g : Memory) (v : Bool) :
    (writeCell stride g x y v).read a = g.read a := by
  rw [writeCell, Memory.read_write, if_neg h]

/-- A grid without columns or without rows has no byte. -/
theorem State.gridBytes_eq_zero {s : State} (h : s.width.toNat = 0 ∨ s.height.toNat = 0) : s.gridBytes = 0 := by
  rcases h with h | h <;> simp [gridBytes, gridBytesOf, strideOf, h]

/-- Wrapping has the dimension as its period (`40_grid_commands.md` R131). -/
theorem wrapCoord_add_mul (x k : Int) (dim : Nat) : wrapCoord (x + k * dim) dim = wrapCoord x dim := by
  rw [wrapCoord, Int.add_mul_emod_self_right, wrapCoord]

/-! ## The checks that refuse -/

/-- The commands that name a cell by its coordinates. -/
def addressesCell : Instr → Bool
  | .gget _ _ => true
  | .gset _ _ _ => true
  | .gflip _ _ => true
  | _ => false

/-- The byte index a command names. -/
def indexOperand : Instr → Option Nat
  | .grdb idx => some idx
  | .gwrb idx _ => some idx
  | _ => none

section
variable {s : State}

/-- Where STATE allows it, a command that names a cell is refused ZERO_DIM on a grid without cells
(`40_grid_commands.md` R133 to R135). -/
theorem exec_of_zeroDim {i : Instr} (hi : addressesCell i = true) (hm : s.mode ∈ legalModes i)
    (hz : s.width.toNat = 0 ∨ s.height.toNat = 0) : exec i s = .next (refusedWith s 6) := by
  cases i with
  | gget x y | gset x y v | gflip x y =>
    exact (State.legalIn_of_mem hm _).trans
      ((State.withCells_of_zero hz _).trans (congrArg _ (refuse_eq_refusedWith s .zeroDim)))
  | _ => cases hi

/-- Where STATE allows it, a command that names a byte is refused BAD_INDEX from GRID_BYTES up
(`40_grid_commands.md` R137, R138). -/
theorem exec_of_badIndex {i : Instr} {idx : Nat} (hi : indexOperand i = some idx) (hm : s.mode ∈ legalModes i)
    (hge : s.gridBytes ≤ idx) : exec i s = .next (refusedWith s 4) := by
  cases i with
  | grdb n | gwrb n data =>
    obtain rfl : n = idx := Option.some.inj hi
    exact (State.legalIn_of_mem hm _).trans
      ((State.withIndex_of_ge hge _).trans (congrArg _ (refuse_eq_refusedWith s .badIndex)))
  | _ => cases hi

/-! ## The accepted commands -/

/-- An accepted GNEW, the whole next state (`40_grid_commands.md` R132). -/
theorem execGnew_of_fits {w h : Int} (hm : s.mode = .unconf) (hw : 0 ≤ w) (hh : 0 ≤ h)
    (hf : gridBytesOf w.toNat h.toNat ≤ s.params.gridCapBytes.val) :
    exec (.gnew w h) s = .next
      { s with
        width := BitVec.ofNat 16 w.toNat
        height := BitVec.ofNat 16 h.toNat
        grid := []
        mode := Mode.grid
        rsp := some (rsp48 0 0 0) } := by
  have hfit : Params.fits s.params w.toNat h.toNat = true := decide_eq_true hf
  lift w to ℕ using hw
  lift h to ℕ using hh
  rw [show exec (.gnew w h) s = _ from State.legalIn_of_mem (by simp [hm]) _, if_neg (by omega), if_pos hfit,
    answer_eq_rsp48, BitVec.ofInt_natCast, BitVec.ofInt_natCast]
  rfl

/-- GNEW with a negative dimension or beyond the capacity (`40_grid_commands.md` R132). -/
theorem execGnew_of_badDim {w h : Int} (hm : s.mode = .unconf)
    (hbad : w < 0 ∨ h < 0 ∨ s.params.gridCapBytes.val < gridBytesOf w.toNat h.toNat) :
    exec (.gnew w h) s = .next (refusedWith s 7) := by
  rw [show exec (.gnew w h) s = _ from State.legalIn_of_mem (by simp [hm]) _]
  by_cases hneg : w < 0 ∨ h < 0
  · rw [if_pos hneg, refuse_eq_refusedWith]
    rfl
  · have hcap : s.params.gridCapBytes.val < gridBytesOf w.toNat h.toNat := by tauto
    have hfit : ¬ Params.fits s.params w.toNat h.toNat = true := by simpa [Params.fits] using hcap
    rw [if_neg hneg, if_neg hfit, refuse_eq_refusedWith]
    rfl

/-- GGET on a grid with cells answers the wrapped cell's bit and nothing else (`40_grid_commands.md` R133). -/
theorem execGget_of_pos {x y : Int} (hm : s.mode ∈ legalModes (.gget x y)) (hw : 0 < s.width.toNat)
    (hh : 0 < s.height.toNat) :
    exec (.gget x y) s = .next { s with rsp := some (rsp48 0 0 (cellBit s (colOf s x) (rowOf s y)).toNat) } := by
  rw [show exec (.gget x y) s = _ from State.legalIn_of_mem hm _, State.withCells_of_pos hw hh, answer_eq_rsp48,
    toNat_bitData, State.cell_eq_cellBit]
  rfl

/-- GGET reads its operands through their wrapped coordinates alone (`40_grid_commands.md` R131). -/
theorem execGget_congr {x x' y y' : Int} (hx : s.wrapX x = s.wrapX x') (hy : s.wrapY y = s.wrapY y') :
    exec (.gget x y) s = exec (.gget x' y') s := by
  show execGget x y s = execGget x' y' s
  rw [execGget, hx, hy, execGget]

/-- GSET on a grid with cells writes the wrapped cell and answers its previous bit (`40_grid_commands.md` R134). -/
theorem execGset_of_pos (x y : Int) (v : Bool) (hm : s.mode = .grid) (hw : 0 < s.width.toNat)
    (hh : 0 < s.height.toNat) :
    exec (.gset x y v) s = .next
      { s with
        grid := writeCell s.stride s.grid (colOf s x) (rowOf s y) v
        rsp := some (rsp48 0 0 (cellBit s (colOf s x) (rowOf s y)).toNat) } := by
  rw [show exec (.gset x y v) s = _ from State.legalIn_of_mem (by simp [hm]) _, State.withCells_of_pos hw hh,
    answer_eq_rsp48, toNat_bitData, State.cell_eq_cellBit]
  rfl

/-- GFLIP is GSET of the complement of the wrapped cell (`40_grid_commands.md` R135). -/
theorem execGflip_eq_execGset (s : State) (x y : Int) :
    exec (.gflip x y) s = exec (.gset x y (!cellBit s (colOf s x) (rowOf s y))) s := by
  rw [← State.cell_eq_cellBit]
  rfl

/-- GCLR clears the buffer (`40_grid_commands.md` R136). -/
theorem execGclr_of_grid (hm : s.mode = .grid) :
    exec .gclr s = .next { s with grid := [], rsp := some (rsp48 0 0 0) } := by
  rw [show exec .gclr s = _ from State.legalIn_of_mem (by simp [hm]) _, answer_eq_rsp48]
  rfl

/-- GRDB in range answers the byte and nothing else (`40_grid_commands.md` R137). -/
theorem execGrdb_of_lt {idx : Nat} (hm : s.mode ∈ legalModes (.grdb idx)) (hi : idx < s.gridBytes) :
    exec (.grdb idx) s = .next { s with rsp := some (rsp48 0 0 (s.grid.read idx).toNat) } := by
  rw [show exec (.grdb idx) s = _ from State.legalIn_of_mem hm _, State.withIndex_of_lt hi, answer_eq_rsp48,
    toNat_byteData]
  rfl

/-- GWRB in range writes the byte (`40_grid_commands.md` R138). -/
theorem execGwrb_of_lt {idx : Nat} (data : Byte) (hm : s.mode = .grid) (hi : idx < s.gridBytes) :
    exec (.gwrb idx data) s = .next { s with grid := s.grid.write idx data, rsp := some (rsp48 0 0 0) } := by
  rw [show exec (.gwrb idx data) s = _ from State.legalIn_of_mem (by simp [hm]) _, State.withIndex_of_lt hi,
    answer_eq_rsp48]
  rfl

end

end Sys2Proof.Machine
end

section
/-! PROOFS. GNEW (`40_grid_commands.md` R132). -/

namespace Sys2Proof.Machine

/-- A grid without cells exists: it can be cleared, and it has neither a cell nor a byte to access
(`40_grid_commands.md` R132). -/
theorem exec_on_grid_without_cells {t : State} (hm : t.mode = .grid) (hz : t.width.toNat = 0 ∨ t.height.toNat = 0) :
    (∃ u, exec .gclr t = .next u ∧ answerStatus u = some 0)
      ∧ (∀ (x y : Int) (v : Bool), exec (.gget x y) t = .next (refusedWith t 6)
          ∧ exec (.gset x y v) t = .next (refusedWith t 6) ∧ exec (.gflip x y) t = .next (refusedWith t 6))
      ∧ ∀ (idx : Nat) (data : Byte), exec (.grdb idx) t = .next (refusedWith t 4)
          ∧ exec (.gwrb idx data) t = .next (refusedWith t 4) := by
  have noBytes : ∀ idx, t.gridBytes ≤ idx := fun idx => State.gridBytes_eq_zero hz ▸ Nat.zero_le idx
  refine ⟨⟨_, execGclr_of_grid hm, rfl⟩, fun x y v => ⟨?_, ?_, ?_⟩, fun idx data => ⟨?_, ?_⟩⟩
  · exact exec_of_zeroDim rfl (by simp [hm, legalModes]) hz
  · exact exec_of_zeroDim rfl (by simp [hm, legalModes]) hz
  · exact exec_of_zeroDim rfl (by simp [hm, legalModes]) hz
  · exact exec_of_badIndex rfl (by simp [hm, legalModes]) (noBytes idx)
  · exact exec_of_badIndex rfl (by simp [hm, legalModes]) (noBytes idx)

/-- Settles O25: the accepted GNEW is one whole state; with a dimension 0 that state is a grid without cells, which fits
every capacity. -/
theorem gnewCreatesGrid : Obligations.GnewCreatesGrid := by
  refine ⟨fun a b => ?word, fun c a b hc => decodeCommand_of_not_unusedZero (o := .gnew) hc,
    fun s w h hm hw _ hh _ hf => execGnew_of_fits hm hw hh hf, fun s w h hm hbad => execGnew_of_badDim hm hbad,
    fun s w h hm hw _ hh _ hz => ?noCells, fun s w h hm => exec_of_not_legal (by simpa [legalModes] using hm)⟩
  case word => exact (decodeCommand_of_unusedZero (o := .gnew) rfl).trans (by simp [Opcode.operands])
  case noCells =>
    have hf : gridBytesOf w.toNat h.toNat ≤ s.params.gridCapBytes.val := by
      rcases hz with rfl | rfl <;> simp [gridBytesOf, strideOf]
    refine ⟨_, execGnew_of_fits hm hw hh hf, rfl, exec_on_grid_without_cells rfl ?_⟩
    exact hz.imp (fun h0 => by simp [h0]) (fun h0 => by simp [h0])

end Sys2Proof.Machine
end

section
/-! PROOFS. The commands that name a cell: GGET, GSET, GFLIP (`40_grid_commands.md` R133 to R135). -/

namespace Sys2Proof.Machine

/-- Settles O26: GGET reads only the wrapped coordinates, which are canonical and have the dimensions as periods. -/
theorem ggetReadsCell : Obligations.GgetReadsCell := by
  refine ⟨fun a b => ?word, fun c a b hc => decodeCommand_of_not_unusedZero (o := .gget) hc,
    fun s x y hm hw hh =>
      ⟨execGget_of_pos (by simpa [legalModes] using hm) hw hh, wrapCoord_lt hw x, wrapCoord_lt hh y⟩,
    fun s x y k m => execGget_congr (wrapCoord_add_mul x k _) (wrapCoord_add_mul y m _),
    fun s x y hm hz => exec_of_zeroDim rfl (by simpa [legalModes] using hm) hz,
    fun s x y hg hd => exec_of_not_legal (by simp [legalModes, hg, hd])⟩
  case word => exact (decodeCommand_of_unusedZero (o := .gget) rfl).trans (by simp [Opcode.operands])

/-- What GSET changes: the bit of the wrapped cell, and no other bit or byte of the buffer (`40_grid_commands.md`
R134). -/
theorem execGset_writes_one_bit {s : State} (x y : Int) (v : Bool) (hm : s.mode = Mode.grid)
    (hw : 0 < s.width.toNat) (hh : 0 < s.height.toNat) :
    ∃ t, exec (.gset x y v) s = .next t
      ∧ t = { s with grid := t.grid, rsp := some (rsp48 0 0 (cellBit s (colOf s x) (rowOf s y)).toNat) }
      ∧ (∀ a k, (t.grid.read a).getLsbD k
          = if a = cellByte s x y ∧ k = colOf s x % 8 then v else (s.grid.read a).getLsbD k)
      ∧ ∀ a, a ≠ cellByte s x y → t.grid.read a = s.grid.read a :=
  ⟨_, execGset_of_pos x y v hm hw hh, rfl, fun a k => getLsbD_read_writeCell _ _ _ _ _ a k,
    fun _ ha => read_writeCell_of_ne ha _ _⟩

/-- Settles O27: the word takes `v` from bit 0 of field `c`, and an accepted GSET is one cell write. -/
theorem gsetWritesCell : Obligations.GsetWritesCell := by
  refine ⟨fun a b v => ?word, fun c a b hc => ?field,
    fun s x y v hm hw hh => execGset_writes_one_bit x y v hm hw hh,
    fun s x y v hm hz => exec_of_zeroDim rfl (by simp [hm, legalModes]) hz,
    fun s x y v hm => exec_of_not_legal (by simpa [legalModes] using hm)⟩
  case word =>
    have hu : Opcode.gset.unusedZero (if v then 1 else 0) a b := by cases v <;> simp [Opcode.unusedZero]
    exact (decodeCommand_of_unusedZero hu).trans (by cases v <;> simp [Opcode.operands, fieldC_commandWord])
  case field =>
    refine decodeCommand_of_not_unusedZero (o := .gset) ?_
    rintro (rfl | rfl) <;> simp at hc

/-- Settles O28: GFLIP is the GSET of the complement, so it changes what that GSET changes. -/
theorem gflipTogglesCell : Obligations.GflipTogglesCell := by
  refine ⟨fun a b => ?word, fun c a b hc => decodeCommand_of_not_unusedZero (o := .gflip) hc,
    fun s x y hm hw hh => ?toggle, fun s x y hm hz => exec_of_zeroDim rfl (by simp [hm, legalModes]) hz,
    fun s x y hm => exec_of_not_legal (by simpa [legalModes] using hm)⟩
  case word => exact (decodeCommand_of_unusedZero (o := .gflip) rfl).trans (by simp [Opcode.operands])
  case toggle =>
    rw [execGflip_eq_execGset]
    exact execGset_writes_one_bit x y _ hm hw hh

end Sys2Proof.Machine
end

section
/-! PROOFS. The commands on the whole buffer or one byte of it: GCLR, GRDB, GWRB (`40_grid_commands.md` R136 to
R138). -/

namespace Sys2Proof.Machine

/-- Settles O29: GCLR uses none of its fields and leaves a buffer that lists no byte. -/
theorem gclrClearsGrid : Obligations.GclrClearsGrid := by
  refine ⟨rfl, fun c a b hf => ?field, fun s hm => ⟨_, execGclr_of_grid hm, rfl, Memory.read_nil⟩,
    fun s hm => exec_of_not_legal (by simpa [legalModes] using hm)⟩
  case field =>
    refine decodeCommand_of_not_unusedZero (o := .gclr) ?_
    rintro ⟨rfl, rfl, rfl⟩
    simp at hf

/-- Settles O30: the index check splits the legal STATEs at GRID_BYTES. -/
theorem grdbReadsByte : Obligations.GrdbReadsByte := by
  refine ⟨fun a b => ?word, fun c a b hc => decodeCommand_of_not_unusedZero (o := .grdb) hc,
    fun s idx hm hi => execGrdb_of_lt (by simpa [legalModes] using hm) hi,
    fun s idx hm hi => exec_of_badIndex rfl (by simpa [legalModes] using hm) hi,
    fun s idx hg hd => exec_of_not_legal (by simp [legalModes, hg, hd])⟩
  case word => exact (decodeCommand_of_unusedZero (o := .grdb) rfl).trans (by simp [Opcode.operands])

/-- Settles O31: an accepted GWRB is one byte write, and the bits of the byte written are the cells it holds. -/
theorem gwrbWritesByte : Obligations.GwrbWritesByte := by
  refine ⟨fun c a b => ?word, fun s idx data hm hi => ?write,
    fun s idx data hm hi => exec_of_badIndex rfl (by simp [hm, legalModes]) hi,
    fun s idx data hm => exec_of_not_legal (by simpa [legalModes] using hm)⟩
  case word =>
    exact (decodeCommand_of_unusedZero (o := .gwrb) trivial).trans (by simp [Opcode.operands, fieldC_commandWord])
  case write =>
    refine ⟨_, execGwrb_of_lt data hm hi, rfl, fun a => Memory.read_write _ _ _ _, fun k hk _ => ?_⟩
    refine (cellBit_of_byte { s with grid := s.grid.write idx data, rsp := _ } idx hk).trans ?_
    rw [Memory.read_write, if_pos rfl]

end Sys2Proof.Machine
end

section
/-! PROOFS. Reasoning rules for the decoder commands (`41_decoder_commands.md`): their words, the commands that only
answer or rewind, FINISHED. -/

namespace Sys2Proof

/-- A command without operands is refused BAD_FIELD when any of its fields is set (`30_encoding.md` R108). -/
theorem decodeCommand_of_field_set {o : Opcode} (ho : o ∈ [.gclr, .dinit, .dnext, .dfin, .drew]) {c : Byte} {a b : Half}
    (h : c ≠ 0 ∨ a ≠ 0 ∨ b ≠ 0) : decodeCommand (commandWord o.byte c a b) = .error .badField := by
  refine decodeCommand_of_not_unusedZero fun hu => ?_
  obtain ⟨ha, hb⟩ := Opcode.unusedZero_ab hu ho
  have hc : c = 0 := Opcode.unusedZero_c hu (by revert ho; cases o <;> decide)
  tauto

end Sys2Proof

namespace Sys2Proof.Machine

/-- In DEC the flag FINISHED compares CURSOR with STREAM_LEN (`10_state.md` R36). -/
theorem State.finished_iff_of_dec {s : State} (hm : s.mode = .dec) : s.finished = true ↔ s.streamLen = s.cursor := by
  simp [finished, hm, eq_comm]

/-- DFIN in DEC answers that comparison and nothing else (`41_decoder_commands.md` R165). -/
theorem execDfin_of_dec {s : State} (hm : s.mode = .dec) :
    exec .dfin s = .next { s with rsp := some (rsp48 0 0 (if s.cursor = s.streamLen then 1 else 0)) } := by
  rw [show exec .dfin s = _ from State.legalIn_of_mem (by simp [hm]) _, answer_eq_rsp48, toNat_bitData,
    Bool.toNat, Bool.cond_decide]

/-- DREW in DEC puts the decoder back at the entry point with a cleared grid (`41_decoder_commands.md` R166). -/
theorem execDrew_of_dec {s : State} (hm : s.mode = .dec) :
    exec .drew s = .next { s with cursor := 128, grid := [], frameId := 0, rsp := some (rsp48 0 0 0) } := by
  rw [show exec .drew s = _ from State.legalIn_of_mem (by simp [hm]) _, answer_eq_rsp48]
  rfl

/-- Settles O54: DFIN uses none of its fields and only answers. -/
theorem dfinReportsTheEnd : Obligations.DfinReportsTheEnd :=
  ⟨rfl, fun _ _ _ hf => decodeCommand_of_field_set (o := .dfin) (by decide) hf, fun _ hm => execDfin_of_dec hm,
    fun _ hm => exec_of_not_legal (by simpa [legalModes] using hm)⟩

/-- Settles O55: DREW keeps STATE and STREAM_LEN, so afterwards FINISHED compares the entry point with STREAM_LEN. -/
theorem drewRewinds : Obligations.DrewRewinds :=
  ⟨rfl, fun _ _ _ hf => decodeCommand_of_field_set (o := .drew) (by decide) hf,
    fun _ hm => ⟨_, execDrew_of_dec hm, rfl, State.finished_iff_of_dec hm⟩,
    fun _ hm => exec_of_not_legal (by simpa [legalModes] using hm)⟩

end Sys2Proof.Machine
end

section
/-! PROOFS. RDSR (`41_decoder_commands.md` R169): the derived registers fit 32 bits, and there are twelve. -/

namespace Sys2Proof.Machine

/-- STRIDE fits 14 bits. -/
theorem State.stride_le (s : State) : s.stride ≤ 8192 := by
  have hw := s.width.isLt
  unfold stride strideOf
  omega

/-- GRID_BYTES fits a status register, at every WIDTH and HEIGHT (`10_state.md` R30). -/
theorem State.gridBytes_lt (s : State) : s.gridBytes < 2 ^ 32 :=
  calc s.gridBytes = s.stride * s.height.toNat := rfl
    _ ≤ 8192 * 65536 := Nat.mul_le_mul s.stride_le s.height.isLt.le
    _ < 2 ^ 32 := by decide

/-- FLAGS as a number: bit 0 is FINISHED, BG is 0 (`10_state.md` R30, R35, R36). -/
theorem State.toNat_flags (s : State) :
    s.flags.toNat = if s.mode = Mode.dec ∧ s.cursor = s.streamLen then 1 else 0 := by
  by_cases h : s.mode = Mode.dec ∧ s.cursor = s.streamLen <;> simp [flags, finished, bg, h]

/-- RDSR answers the number its register holds, in every STATE (`41_decoder_commands.md` R169). -/
theorem execRdsr_of_toNat {s : State} {n v : Nat} {d : Word} (h : s.statusRegister n = some d) (hv : d.toNat = v) :
    exec (.rdsr n) s = .next { s with rsp := some (rsp48 0 0 v) } :=
  hv ▸ execRdsr_of_statusRegister h

/-- RDSR of a number above 11 is refused BAD_SREG, in every STATE (`41_decoder_commands.md` R169). -/
theorem execRdsr_of_gt {s : State} {n : Nat} (hn : 11 < n) : exec (.rdsr n) s = .next (refusedWith s 5) := by
  obtain ⟨k, rfl⟩ := Nat.exists_eq_add_of_lt hn
  have hnone : s.statusRegister (11 + k + 1) = none := by
    rw [show 11 + k + 1 = k + 12 by omega]
    rfl
  rw [show exec (.rdsr (11 + k + 1)) s = _ from State.legalIn_of_mem (by cases s.mode <;> decide) _]
  simp only [hnone]
  rw [refuse_eq_refusedWith]
  rfl

/-- Settles O56: ten registers are zero-extended as they stand, the two derived sizes fit 32 bits. -/
theorem rdsrReadsStatusRegisters : Obligations.RdsrReadsStatusRegisters := by
  refine ⟨fun b => ?word, fun c a b h => ?field, fun s => ?registers, fun s n hn => execRdsr_of_gt hn⟩
  case word =>
    exact (decodeCommand_of_unusedZero (o := .rdsr) ⟨rfl, rfl⟩).trans (by simp [Opcode.operands, fieldB_commandWord])
  case field => exact decodeCommand_of_not_unusedZero (o := .rdsr) fun ⟨hc, ha⟩ => h.elim (· hc) (· ha)
  case registers =>
    have half : ∀ v : Half, (v.setWidth 32).toNat = v.toNat := fun _ => BitVec.toNat_setWidth_of_le (by decide)
    refine ⟨execRdsr_of_toNat rfl ?state, execRdsr_of_toNat rfl (half _), execRdsr_of_toNat rfl (half _),
      execRdsr_of_toNat rfl ?stride, execRdsr_of_toNat rfl ?gridBytes, execRdsr_of_toNat rfl rfl,
      execRdsr_of_toNat rfl rfl, execRdsr_of_toNat rfl rfl, execRdsr_of_toNat rfl (toNat_byteData _),
      execRdsr_of_toNat rfl rfl, execRdsr_of_toNat rfl rfl, execRdsr_of_toNat rfl s.toNat_flags⟩
    case state => cases s.mode <;> rfl
    case stride => exact (BitVec.toNat_ofNat _ _).trans (Nat.mod_eq_of_lt (s.stride_le.trans_lt (by decide)))
    case gridBytes => exact (BitVec.toNat_ofNat _ _).trans (Nat.mod_eq_of_lt s.gridBytes_lt)

end Sys2Proof.Machine
end

section
/-! PROOFS. DINIT (`41_decoder_commands.md` R161): the header it reads, the checks on it in their order, the decoder it
constructs. -/

namespace Sys2Proof

/-- The magic is 8 + 4 bytes (`30_encoding.md` R92). -/
@[simp] theorem Params.length_magic (p : Params) : p.magic.length = 12 := by
  simp [magic, magicHead]

end Sys2Proof

namespace Sys2Proof.Machine

/-! ## The header checks, each after those before it pass (`60_exceptions.md` R243) -/

section
variable {p : Params} {h : Header}

theorem headerFault_of_magic (hm : h.magic ≠ p.magic) : Params.headerFault p h = some .badMagic := if_pos hm

theorem headerFault_of_version (hm : h.magic = p.magic) (hv : h.version ≠ p.supportedVersion.toNat) :
    Params.headerFault p h = some .badVersion :=
  (if_neg (not_not.2 hm)).trans (if_pos hv)

theorem headerFault_of_dims (hm : h.magic = p.magic) (hv : h.version = p.supportedVersion.toNat)
    (hd : maxDim < h.width ∨ maxDim < h.height) : Params.headerFault p h = some .dimRange :=
  (if_neg (not_not.2 hm)).trans <| (if_neg (not_not.2 hv)).trans (if_pos hd)

/-- The last check: with the dimensions in range only the capacity can fail. -/
theorem headerFault_of_dims_le (hm : h.magic = p.magic) (hv : h.version = p.supportedVersion.toNat)
    (hw : h.width ≤ maxDim) (hh : h.height ≤ maxDim) :
    Params.headerFault p h = if gridBytesOf h.width h.height ≤ p.gridCapBytes.val then none else some .capacity :=
  (if_neg (not_not.2 hm)).trans <| (if_neg (not_not.2 hv)).trans <| (if_neg (by omega)).trans <|
    if_congr decide_eq_true_iff rfl rfl

end

/-! ## The header in the stream -/

/-- A run of bytes is a given list exactly where it reads so at each index. -/
theorem Memory.bytes_eq_iff {m : Memory} {a n : Nat} {l : List Byte} (hl : l.length = n) :
    m.bytes a n = l ↔ ∀ k, k < n → m.read (a + k) = l.getD k 0 := by
  refine ⟨fun h k hk => by rw [← h, Memory.getD_bytes m hk], fun h => ?_⟩
  refine List.ext_getElem (by simp [hl]) fun k hk hk' => ?_
  have hkn : k < n := hl ▸ hk'
  rw [← List.getD_eq_getElem _ 0 hk, ← List.getD_eq_getElem _ 0 hk', Memory.getD_bytes m hkn, h k hkn]

/-- The header in the stream memory, field by field (`30_encoding.md` R91). -/
def State.streamHeader (s : State) : Header :=
  { magic := s.stream.bytes 0 12
    version := mem4 s 12
    frameCount := mem4 s 16
    width := mem2 s 20
    height := mem2 s 22 }

/-- The magic test compares the first twelve bytes of the stream (`30_encoding.md` R92). -/
theorem streamHeader_magic_iff (s : State) :
    s.streamHeader.magic = s.params.magic ↔ ∀ k, k < 12 → s.stream.read k = s.params.magic.getD k 0 :=
  (Memory.bytes_eq_iff (Params.length_magic s.params)).trans (by simp only [Nat.zero_add])

section
variable {s : State}

/-- What DINIT reads, once it has latched SM_LEN, from a stream that holds a header. -/
theorem headerRead_latchLen_of_le (hl : 128 ≤ s.smLen.toNat) : s.latchLen.headerRead = some s.streamHeader :=
  (if_neg (not_lt.2 hl)).trans (congrArg some (parseHeader_bytes s.latchLen))

/-! ## The outcomes of DINIT -/

/-- A stream shorter than a header is the fault HDR_SHORT. -/
theorem execDinit_of_short (hm : s.mode = .unconf) (hl : s.smLen.toNat < 128) :
    exec .dinit s = .next (faultedWith { s with streamLen := s.smLen } 1 0) := by
  have hr : s.latchLen.headerRead = none := if_pos hl
  rw [show exec .dinit s = _ from State.legalIn_of_mem (by simp [hm]) _]
  simp only [hr, raise_eq_faultedWith]
  rfl

/-- A header that fails a check is that check's fault at offset 0; only STREAM_LEN has been written besides. -/
theorem execDinit_of_fault {f : FaultCode} (hm : s.mode = .unconf) (hl : 128 ≤ s.smLen.toNat)
    (hf : Params.headerFault s.params s.streamHeader = some f) :
    exec .dinit s = .next (faultedWith { s with streamLen := s.smLen } f.code.toNat 0) := by
  rw [show exec .dinit s = _ from State.legalIn_of_mem (by simp [hm]) _, headerRead_latchLen_of_le hl]
  simp only [hf, raise_eq_faultedWith]
  rfl

/-- A header that passes every check constructs the decoder: the whole next state. -/
theorem execDinit_of_accepted (hm : s.mode = .unconf) (hl : 128 ≤ s.smLen.toNat)
    (hf : Params.headerFault s.params s.streamHeader = none) :
    exec .dinit s = .next
      { s with
        streamLen := s.smLen
        width := BitVec.ofNat 16 (mem2 s 20)
        height := BitVec.ofNat 16 (mem2 s 22)
        hdrFrameCount := BitVec.ofNat 32 (mem4 s 16)
        grid := []
        cursor := 128
        frameId := 0
        mode := Mode.dec
        rsp := some (rsp48 0 0 0) } := by
  rw [show exec .dinit s = _ from State.legalIn_of_mem (by simp [hm]) _, headerRead_latchLen_of_le hl]
  simp only [hf, State.construct, answer_eq_rsp48]
  rfl

end

/-- Settles O40: the checks on the stream's header, in order, decide between the decoder and each fault. -/
theorem dinitConstructsDecoder : Obligations.DinitConstructsDecoder := by
  refine ⟨rfl, fun _ _ _ hf => decodeCommand_of_field_set (o := .dinit) (by decide) hf,
    fun s hm hl hmagic hv hw hh hcap => ?accepted, fun s hm hl => execDinit_of_short hm hl,
    fun s hm hl => ⟨?badMagic, fun hmagic => ?laterChecks⟩,
    fun s hm => exec_of_not_legal (by simpa [legalModes] using hm)⟩
  case accepted =>
    have hf := (headerFault_of_dims_le ((streamHeader_magic_iff s).2 hmagic) hv hw hh).trans (if_pos hcap)
    exact ⟨_, execDinit_of_accepted hm hl hf, rfl, State.finished_iff_of_dec rfl⟩
  case badMagic =>
    rintro ⟨k, hk, hne⟩
    exact execDinit_of_fault hm hl (headerFault_of_magic fun h => hne ((streamHeader_magic_iff s).1 h k hk))
  case laterChecks =>
    have hmagic' := (streamHeader_magic_iff s).2 hmagic
    refine ⟨fun hv => ?badVersion, fun hv => ⟨fun hd => ?dimRange, fun hw hh hcap => ?capacity⟩⟩
    case badVersion => exact execDinit_of_fault hm hl (headerFault_of_version hmagic' hv)
    case dimRange => exact execDinit_of_fault hm hl (headerFault_of_dims hmagic' hv hd)
    case capacity =>
      exact execDinit_of_fault hm hl ((headerFault_of_dims_le hmagic' hv hw hh).trans (if_neg (not_le.2 hcap)))

end Sys2Proof.Machine
end

section
/-! PROOFS. DNEXT (`41_decoder_commands.md` R163): the end of the stream, then the form the chunk header declares. -/

namespace Sys2Proof

/-! ## The form of a chunk header (`30_encoding.md` R98, R102) -/

section
variable {h : ChunkHeader}

theorem ChunkHeader.form_of_kind_ne (hk : h.kind ≠ 1) : h.form = .error .badKind := if_pos hk

theorem ChunkHeader.form_of_two_le (hk : h.kind = 1) (hc : 2 ≤ h.compression) : h.form = .error .badCompression :=
  (if_neg (not_not.2 hk)).trans <| (if_neg (by omega)).trans (if_neg (by omega))

theorem ChunkHeader.form_of_zero (hk : h.kind = 1) (hc : h.compression = 0) : h.form = .ok .raw :=
  (if_neg (not_not.2 hk)).trans (if_pos hc)

theorem ChunkHeader.form_of_one (hk : h.kind = 1) (hc : h.compression = 1) : h.form = .ok .rle :=
  (if_neg (not_not.2 hk)).trans <| (if_neg (by omega)).trans (if_pos hc)

end

end Sys2Proof

namespace Sys2Proof.Machine

section
variable {s : State}

/-- DNEXT where the chunk at CURSOR does not lie inside the buffer: end of stream (`60_exceptions.md` R244). -/
theorem execDnext_of_not_complete (hm : s.mode = .dec) (h : ¬ chunkComplete s) :
    exec .dnext s = .next { s with cursor := s.streamLen, rsp := some (rsp48 1 0 0) } := by
  rw [show exec .dnext s = _ from State.legalIn_of_mem (by simp [hm]) _, ← endOfStream_eq]
  by_cases h6 : s.cursor.toNat + 6 ≤ s.streamLen.toNat
  · have hpast : s.streamLen.toNat < s.cursor.toNat + 6 + mem2 s (s.cursor.toNat + 2) := not_le.1 fun hp => h ⟨h6, hp⟩
    rw [State.chunkRead_of_le h6]
    simp only [State.payloadRead_of_gt hpast]
  · rw [State.chunkRead_of_gt (not_le.1 h6)]

/-- DNEXT on a complete chunk of an unknown kind. -/
theorem execDnext_of_kind_ne (hm : s.mode = .dec) (h : chunkComplete s) (hk : mem2 s s.cursor.toNat ≠ 1) :
    exec .dnext s = .next (s.raiseChunk .badChunkKind) := by
  rw [execDnext_of_complete hm h, ChunkHeader.form_of_kind_ne hk]

/-- A chunk fault as the statements write it: the grid and the model's counter are left open (assumption log 5). -/
theorem exists_raiseChunk_eq (s : State) (f : FaultCode) :
    ∃ g n, s.raiseChunk f = faultedWith { s with grid := g, freeCount := n } f.code.toNat s.cursor :=
  ⟨_, _, raiseChunk_eq s f⟩

/-- What an OK answer of DNEXT tells: in DEC, a complete chunk of kind 1 was there, and the frame was counted
(`41_decoder_commands.md` R163). -/
theorem execDnext_ok {t : State} (h : exec .dnext s = .next t) (hok : answerStatus t = some 0) :
    s.mode = .dec ∧ chunkComplete s ∧ mem2 s s.cursor.toNat = 1
      ∧ ∃ g, t = s.frameDone (mem2 s (s.cursor.toNat + 2)) g := by
  rcases execDnext_cases h with ⟨-, rfl⟩ | ⟨-, rfl⟩ | ⟨f, -, rfl, -⟩ | ⟨g, hm, ht, hend, -⟩
  · simp at hok
  · simp at hok
  · simp at hok
  · have hcomplete : chunkComplete s := ⟨le_trans (Nat.le_add_right _ _) hend, hend⟩
    refine ⟨hm, hcomplete, ?_, g, ht⟩
    by_contra hk
    rw [execDnext_of_kind_ne hm hcomplete hk] at h
    cases h
    simp at hok

end

/-- Settles O42: on a complete chunk the header's form decides, and an OK answer excludes every other way to
complete. -/
theorem dnextFetchesTheChunk : Obligations.DnextFetchesTheChunk := by
  refine ⟨rfl, fun _ _ _ hf => decodeCommand_of_field_set (o := .dnext) (by decide) hf,
    fun s hm h => execDnext_of_not_complete hm h, fun s hm h => ⟨fun hk => ?badKind, fun hk hc => ?badCompression,
      fun hk hc => ?raw, fun hk hc => ?rle⟩, fun s t h hok => ?frame,
    fun s hm => exec_of_not_legal (by simpa [legalModes] using hm)⟩
  case badKind =>
    obtain ⟨g, n, hf⟩ := exists_raiseChunk_eq s .badChunkKind
    exact ⟨g, n, (execDnext_of_kind_ne hm h hk).trans (congrArg _ hf)⟩
  case badCompression =>
    obtain ⟨g, n, hf⟩ := exists_raiseChunk_eq s .badCompression
    refine ⟨g, n, Eq.trans ?_ (congrArg _ hf)⟩
    rw [execDnext_of_complete hm h, ChunkHeader.form_of_two_le hk hc]
  case raw =>
    rw [execDnext_of_complete hm h, ChunkHeader.form_of_zero hk hc]
    rfl
  case rle =>
    rw [execDnext_of_complete hm h, ChunkHeader.form_of_one hk hc]
    rfl
  case frame =>
    obtain ⟨hm, hcomplete, hk, g, rfl⟩ := execDnext_ok h hok
    refine ⟨hm, hcomplete, hk, ?_⟩
    rw [frameDone_eq]

end Sys2Proof.Machine
end

section
/-! PROOFS. The completions that are no exceptions (`60_exceptions.md` R244, R245): an answer REFUSED comes from a
refusal alone, which no later instruction can see; end of stream moves CURSOR only. -/

namespace Sys2Proof.Machine

/-! ## Refusals -/

/-- The reasons are numbered 1 to 7 (`60_exceptions.md` R246). -/
theorem Reason.code_mem_range (r : Reason) : 1 ≤ r.code.toNat ∧ r.code.toNat ≤ 7 := by
  cases r <;> decide

@[simp] theorem answerStatus_construct (s : State) (h : Header) : answerStatus (s.construct h) = some 0 :=
  answerStatus_respond _ .ok 0 0

/-- Of all effects only a refusal answers REFUSED (`30_encoding.md` R112). -/
theorem Effect.eq_refuse_of_status {s t : State} {i : Instr} (h : Effect s i t) (hs : answerStatus t = some 2) :
    ∃ r, t = s.refuse r := by
  cases h with
  | refused _ r => exact ⟨r, rfl⟩
  | read | created | cellWritten | cleared | byteWritten | constructed | frame | rewound => simp at hs
  | ended => simp at hs
  | notConstructed | chunkFault => simp at hs

/-- A step that answers a command word REFUSED has refused it, at decoding or at execution, and done nothing else
(`60_exceptions.md` R245). -/
theorem step_eq_refuse_of_status {s t : State} {w : Word48} {rest : List HostInput}
    (hin : s.inputs = .command w :: rest) (h : step s = .next t) (hs : answerStatus t = some 2) :
    ∃ r, t = (s.withInputs rest).refuse r := by
  rcases step_cases h with ⟨hi, -⟩ | ⟨_, hi, -⟩ | ⟨_, _, e, hi, -, ht⟩ | ⟨_, _, i, hi, -, he⟩ <;> cases hin.symm.trans hi
  · exact ⟨_, ht⟩
  · exact he.eq_refuse_of_status hs

/-- Settles O14: the refusal writes the response channel alone, and no instruction reads that channel. -/
theorem refusalChangesNothing : Obligations.RefusalChangesNothing := by
  intro s t w rest hin h hs
  obtain ⟨r, rfl⟩ := step_eq_refuse_of_status hin h hs
  obtain ⟨hlow, hhigh⟩ := r.code_mem_range
  exact ⟨⟨r.code.toNat, hlow, hhigh, refuse_eq_refusedWith _ r⟩, fun j => exec_rsp_irrelevant j (s.withInputs rest) _⟩

/-! ## End of stream -/

/-- The two conditions of R244: the six header bytes or the payload run past the buffer. -/
theorem not_chunkComplete_iff (s : State) :
    ¬ chunkComplete s ↔ s.streamLen.toNat < s.cursor.toNat + 6
      ∨ s.streamLen.toNat < s.cursor.toNat + 6 + mem2 s (s.cursor.toNat + 2) := by
  rw [chunkComplete, not_and_or, not_le, not_le]

/-- Settles O41: end of stream keeps the unit in DEC, where DREW is legal. -/
theorem endOfStreamIsAnAnswer : Obligations.EndOfStreamIsAnAnswer := by
  intro s hm hend
  exact ⟨_, execDnext_of_not_complete hm ((not_chunkComplete_iff s).2 hend), rfl, by simp [hm, legalModes]⟩

end Sys2Proof.Machine
end

section
/-! PROOFS. Encoding and decoding of both languages (`30_encoding.md`): they invert each other, and the command decoder
is the match and mask recipe over the rows of spec/opcode_table.json. -/

namespace Sys2Proof

open Sys2Proof.Machine

/-! ## A byte index in two fields (`30_encoding.md` R107) -/

theorem byteIndex_of_halves {idx : Nat} (h : isUnsigned32 idx = true) :
    (BitVec.ofNat 16 (idx / 65536)).toNat * 65536 + (BitVec.ofNat 16 idx).toNat = idx := by
  have hlt : idx < 4294967296 := of_decide_eq_true h
  simp only [BitVec.toNat_ofNat]
  omega

theorem halves_of_byteIndex (a b : Half) :
    BitVec.ofNat 16 ((a.toNat * 65536 + b.toNat) / 65536) = a ∧ BitVec.ofNat 16 (a.toNat * 65536 + b.toNat) = b := by
  have ha := a.isLt
  have hb := b.isLt
  refine ⟨BitVec.eq_of_toNat_eq ?_, BitVec.eq_of_toNat_eq ?_⟩ <;> rw [BitVec.toNat_ofNat] <;> omega

/-! ## Decoding an encoding -/

/-- A command word decodes to the operands of its fields. -/
theorem decode_command_of_operands (o : Opcode) {c : Byte} {a b : Half} {i : Instr} (hu : o.unusedZero c a b)
    (hi : o.operands (commandWord o.byte c a b) = i) : decode (.command (commandWord o.byte c a b)) = .ok i := by
  simp only [decode, decodeCommand_of_unusedZero hu, hi]

theorem length_chunkHeaderOf (n comp : Nat) (bg : Byte) : (chunkHeaderOf n comp bg).length = 6 := by
  simp [chunkHeaderOf, length_leBytes]

/-- A chunk header of kind 1 decodes by its form (`30_encoding.md` R98). -/
theorem decodeChunk_chunkHeaderOf {n : Nat} (hn : n < 65536) (bg : Byte) :
    decodeChunk (chunkHeaderOf n 0 bg) = .ok (.frameRaw n bg)
      ∧ decodeChunk (chunkHeaderOf n 1 bg) = .ok (.frameRle n bg) := by
  have sixBytes : ∀ comp, ¬ (chunkHeaderOf n comp bg).length < 6 := fun comp =>
    (length_chunkHeaderOf n comp bg).not_lt
  constructor
  · rw [decodeChunk, if_neg (sixBytes 0), parseChunkHeader_chunkHeaderOf hn (by decide),
      ChunkHeader.form_of_zero rfl rfl]
  · rw [decodeChunk, if_neg (sixBytes 1), parseChunkHeader_chunkHeaderOf hn (by decide),
      ChunkHeader.form_of_one rfl rfl]

/-- Settles O1: a command by its opcode's operands, each of which survives its field; a chunk form by its header. -/
theorem decodeInvertsEncode : Obligations.DecodeInvertsEncode := by
  intro i hi
  cases i with
  | gnew x y =>
    obtain ⟨hx, hy⟩ := Bool.and_eq_true_iff.1 hi
    exact decode_command_of_operands .gnew rfl (by simp [Opcode.operands, toInt_halfOfInt, hx, hy])
  | gget x y =>
    obtain ⟨hx, hy⟩ := Bool.and_eq_true_iff.1 hi
    exact decode_command_of_operands .gget rfl (by simp [Opcode.operands, toInt_halfOfInt, hx, hy])
  | gset x y v =>
    obtain ⟨hx, hy⟩ := Bool.and_eq_true_iff.1 hi
    exact decode_command_of_operands .gset (by cases v <;> simp [Opcode.unusedZero])
      (by cases v <;> simp [Opcode.operands, fieldC_commandWord, toInt_halfOfInt, hx, hy])
  | gflip x y =>
    obtain ⟨hx, hy⟩ := Bool.and_eq_true_iff.1 hi
    exact decode_command_of_operands .gflip rfl (by simp [Opcode.operands, toInt_halfOfInt, hx, hy])
  | grdb idx =>
    exact decode_command_of_operands .grdb rfl
      (by rw [Opcode.operands, byteIndexAB_commandWord, byteIndex_of_halves hi])
  | gwrb idx data =>
    exact decode_command_of_operands .gwrb trivial
      (by rw [Opcode.operands, byteIndexAB_commandWord, byteIndex_of_halves hi, fieldC_commandWord])
  | gclr | dinit | dnext | dfin | drew => rfl
  | rdsr n =>
    have hn : n < 65536 := of_decide_eq_true hi
    exact decode_command_of_operands .rdsr ⟨rfl, rfl⟩
      (by rw [Opcode.operands, fieldB_commandWord, BitVec.toNat_ofNat, Nat.mod_eq_of_lt hn])
  | frameRaw n bg =>
    rw [encode, decode, (decodeChunk_chunkHeaderOf (of_decide_eq_true hi) bg).1]
  | frameRle n bg =>
    rw [encode, decode, (decodeChunk_chunkHeaderOf (of_decide_eq_true hi) bg).2]

/-! ## Encoding what was decoded -/

/-- A legal command word is the encoding of its operands. -/
theorem encode_operands {o : Opcode} {c : Byte} {a b : Half} (hu : o.unusedZero c a b) :
    encode (o.operands (commandWord o.byte c a b)) = .command (commandWord o.byte c a b) := by
  cases o
  case gnew | gget | gflip =>
    obtain rfl : c = 0 := hu
    simp [Opcode.operands, encode, halfOfInt_toInt, Opcode.byte]
  case gset =>
    rcases hu with rfl | rfl <;> simp [Opcode.operands, encode, halfOfInt_toInt, fieldC_commandWord, Opcode.byte]
  case grdb =>
    obtain rfl : c = 0 := hu
    simp [Opcode.operands, encode, halves_of_byteIndex, Opcode.byte]
  case gwrb => simp [Opcode.operands, encode, halves_of_byteIndex, fieldC_commandWord, Opcode.byte]
  case gclr | dinit | dnext | dfin | drew =>
    obtain ⟨rfl, rfl, rfl⟩ := hu
    rfl
  case rdsr =>
    obtain ⟨rfl, rfl⟩ := hu
    simp [Opcode.operands, encode, fieldB_commandWord, Opcode.byte]

theorem isUnsigned32_byteIndexAB (w : Word48) : isUnsigned32 (byteIndexAB w) = true := by
  have ha := (fieldA w).isLt
  have hb := (fieldB w).isLt
  exact decide_eq_true (by unfold byteIndexAB; omega)

/-- Operand assembly gives well-formed instructions (`30_encoding.md` R107). -/
theorem wellFormed_operands (o : Opcode) (w : Word48) : (o.operands w).wellFormed = true := by
  cases o
  case gnew | gget | gset | gflip => exact Bool.and_eq_true_iff.2 ⟨isSigned16_toInt _, isSigned16_toInt _⟩
  case grdb | gwrb => exact isUnsigned32_byteIndexAB w
  case rdsr => exact decide_eq_true (fieldB w).isLt
  case gclr | dinit | dnext | dfin | drew => rfl

/-- Settles O2: the word is its fields, and the encoder writes each of them back. -/
theorem encodeInvertsDecodeOfCommands : Obligations.EncodeInvertsDecodeOfCommands := by
  intro w i h
  obtain ⟨o, hw, hu, rfl⟩ := decodeCommand_ok h
  refine ⟨?_, wellFormed_operands o w⟩
  rw [hw]
  exact encode_operands hu

/-! ## The rows of the opcode table -/

/-- The row (match, mask) of an opcode in spec/opcode_table.json: its byte, and all of `op` beside the unused bits. -/
def Opcode.row (o : Opcode) : Word48 × Word48 := (commandWord o.byte 0 0 0, commandWord 0xFF 0 0 0 ||| o.unused)

/-- The table's rows are those of the twelve opcodes. -/
theorem exists_opcode_of_mem_commandRows {row : Word48 × Word48} (h : row ∈ commandRows) :
    ∃ o : Opcode, row = o.row := by
  have rows : commandRows = [Opcode.gnew, .gget, .gset, .gflip, .gclr, .grdb, .gwrb, .dinit, .dnext, .dfin, .drew,
      .rdsr].map Opcode.row := by decide
  rw [rows] at h
  obtain ⟨o, -, rfl⟩ := List.mem_map.1 h
  exact ⟨o, rfl⟩

theorem Opcode.row_mem_commandRows (o : Opcode) : o.row ∈ commandRows := by
  cases o <;> decide

/-- An instruction of an opcode has that opcode's row. -/
theorem commandRow_operands (o : Opcode) (w : Word48) : commandRow (o.operands w) = some o.row := by
  cases o <;> rfl

/-- A command word is its four fields. -/
theorem commandWord_inj {op op' c c' : Byte} {a a' b b' : Half} :
    commandWord op c a b = commandWord op' c' a' b' ↔ op = op' ∧ c = c' ∧ a = a' ∧ b = b' := by
  refine ⟨fun h => ?_, by rintro ⟨rfl, rfl, rfl, rfl⟩; rfl⟩
  have hop := congrArg fieldOp h
  have hc := congrArg fieldC h
  have ha := congrArg fieldA h
  have hb := congrArg fieldB h
  rw [fieldOp_commandWord, fieldOp_commandWord] at hop
  rw [fieldC_commandWord, fieldC_commandWord] at hc
  rw [fieldA_commandWord, fieldA_commandWord] at ha
  rw [fieldB_commandWord, fieldB_commandWord] at hb
  exact ⟨hop, hc, ha, hb⟩

/-- A row's mask as fields: all of `op`, and the unused bits. -/
theorem Opcode.row_mask_eq (o : Opcode) :
    o.row.2 = commandWord 0xFF (fieldC o.unused) (fieldA o.unused) (fieldB o.unused) := by
  cases o <;> decide

/-- A word is a row's match under its mask when it has the row's opcode and leaves the unused fields zero
(`30_encoding.md` R118). -/
theorem and_mask_eq_row_iff (o : Opcode) (op c : Byte) (a b : Half) :
    commandWord op c a b &&& o.row.2 = o.row.1 ↔ op = o.byte ∧ o.unusedZero c a b := by
  have hunused : commandWord o.byte c a b &&& o.unused = 0
      ↔ c &&& fieldC o.unused = 0 ∧ a &&& fieldA o.unused = 0 ∧ b &&& fieldB o.unused = 0 := by
    rw [o.unused_eq, commandWord_and, commandWord_eq_zero, ← o.unused_eq]
    simp
  have hop : op &&& 0xFF = op := BitVec.and_allOnes
  rw [← commandWord_and_unused, hunused, o.row_mask_eq, commandWord_and, hop]
  exact commandWord_inj

/-- Settles O3: a row stands for an opcode; its opcode field is the decoder's first check, its match both checks. -/
theorem commandWordsDecodeByTheTable : Obligations.CommandWordsDecodeByTheTable := by
  intro w
  have rowOp : ∀ o : Opcode, o.row.1.extractLsb' 40 8 = o.byte := fun o => fieldOp_commandWord _ _ _ _
  refine ⟨fun hop => ?noOpcode, fun row hrow hop hne => ?noMatch, fun row hrow hm => ?isMatch⟩
  case noOpcode =>
    cases ho : Opcode.ofByte (fieldOp w) with
    | none => simp only [decodeCommand, ho]
    | some o => exact absurd (Opcode.byte_of_ofByte ho).symm (rowOp o ▸ hop _ o.row_mem_commandRows)
  case noMatch =>
    obtain ⟨o, rfl⟩ := exists_opcode_of_mem_commandRows hrow
    rw [rowOp] at hop
    rw [← commandWord_fields w] at hne ⊢
    rw [ne_eq, and_mask_eq_row_iff, not_and] at hne
    rw [show fieldOp w = o.byte from hop]
    exact decodeCommand_of_not_unusedZero (hne hop)
  case isMatch =>
    obtain ⟨o, rfl⟩ := exists_opcode_of_mem_commandRows hrow
    rw [← commandWord_fields w, and_mask_eq_row_iff] at hm
    obtain ⟨hop, hu⟩ := hm
    rw [← commandWord_fields w, hop]
    exact ⟨_, decodeCommand_of_unusedZero hu, commandRow_operands o _⟩

/-! ## Words and bytes of the spec -/

/-- Settles O4: each word and header is decoded by the tables. -/
theorem wordsOfTheSpecDecode : Obligations.WordsOfTheSpecDecode := by
  unfold Obligations.WordsOfTheSpecDecode
  decide

/-- The fields of six chunk-header bytes (`30_encoding.md` R97). -/
theorem parseChunkHeader_six (b0 b1 b2 b3 b4 b5 : Byte) :
    parseChunkHeader [b0, b1, b2, b3, b4, b5]
      = { kind := b0.toNat + 256 * b1.toNat, payloadSize := b2.toNat + 256 * b3.toNat, compression := b4.toNat,
          background := b5 } := by
  simp [parseChunkHeader, leNat]

/-- Settles O5: the form of the parsed header, its compression compared as a number. -/
theorem chunkHeaderBytesDecode : Obligations.ChunkHeaderBytesDecode := by
  intro b0 b1 b2 b3 b4 b5
  have compression_iff : ∀ v : Byte, b4.toNat = v.toNat ↔ b4 = v := fun v => BitVec.toNat_inj
  rw [decodeChunk, if_neg (by simp), parseChunkHeader_six]
  by_cases hk : b0.toNat + 256 * b1.toNat = 1
  · rw [if_neg (not_not.2 hk)]
    by_cases h0 : b4 = 0
    · rw [if_pos h0, ChunkHeader.form_of_zero hk ((compression_iff 0).2 h0)]
    · rw [if_neg h0]
      by_cases h1 : b4 = 1
      · rw [if_pos h1, ChunkHeader.form_of_one hk ((compression_iff 1).2 h1)]
      · have n0 : b4.toNat ≠ 0 := mt (compression_iff 0).1 h0
        have n1 : b4.toNat ≠ 1 := mt (compression_iff 1).1 h1
        rw [if_neg h1, ChunkHeader.form_of_two_le hk (by show 2 ≤ b4.toNat; omega)]
  · rw [if_pos hk, ChunkHeader.form_of_kind_ne hk]

end Sys2Proof
end

section
/-! PROOFS. The step (`00_scope.md` R10): what it runs, that it always answers, and the invariants it keeps
(`10_state.md` R46). -/

namespace Sys2Proof.Machine

/-! ## What a step runs -/

/-- A step on a word that decodes. -/
theorem step_of_decode {s : State} {w : Word48} {rest : List HostInput} {i : Instr}
    (h : s.inputs = .command w :: rest) (hd : decodeCommand w = .ok i) : step s = exec i (s.withInputs rest) := by
  unfold step fetch
  simp only [h, hd]

/-- Settles O6: fetching takes the word and decodes it. -/
theorem stepRunsDecodedCommand : Obligations.StepRunsDecodedCommand :=
  fun _ _ _ _ hin hd => step_of_decode hin hd

/-- DNEXT runs the complete chunk that decodes at CURSOR (`41_decoder_commands.md` R163). -/
theorem execDnext_of_decodeChunk {s : State} {i : Instr} (hm : s.mode = .dec) (h : chunkComplete s)
    (hd : decodeChunk (s.stream.bytes s.cursor.toNat 6) = .ok i) : exec .dnext s = exec i s := by
  rw [decodeChunk, if_neg (by simp), parseChunkHeader_bytes] at hd
  rw [execDnext_of_complete hm h]
  split at hd
  · cases hd
  · next hf => cases hd; rw [hf]; rfl
  · next hf => cases hd; rw [hf]; rfl

/-- Settles O7: the step runs DNEXT, which runs the chunk. -/
theorem stepRunsChunkAtCursor : Obligations.StepRunsChunkAtCursor := by
  intro s w rest i hin hw hm hc hd
  rw [step_of_decode hin hw]
  exact execDnext_of_decodeChunk (s := s.withInputs rest) hm hc hd

/-- Settles O10: with no event there is nothing to fetch. -/
theorem idleStepChangesNothing : Obligations.IdleStepChangesNothing := by
  intro s hin
  unfold step fetch
  simp only [hin]

/-! ## Every step answers -/

theorem exists_step (s : State) : ∃ t, step s = .next t := by
  unfold step
  cases fetch s with
  | idle => exact ⟨s, rfl⟩
  | done t => exact ⟨t, rfl⟩
  | run i t =>
    obtain ⟨u, hu, -⟩ := exec_effect i t
    exact ⟨u, hu⟩

/-- The statuses are numbered 0 to 3 (`30_encoding.md` R112). -/
theorem Status.code_le (st : Status) : st.code.toNat ≤ 3 := by
  cases st <;> decide

/-- Settles O13: a word is refused at decoding, or executed to an effect, and every effect ends in a response. -/
theorem everyCommandIsAnswered : Obligations.EveryCommandIsAnswered := by
  intro s
  obtain ⟨t, ht⟩ := exists_step s
  refine ⟨t, ht, fun w rest hin => ?_⟩
  rcases step_cases ht with ⟨hi, -⟩ | ⟨_, hi, -⟩ | ⟨_, _, e, hi, -, rfl⟩ | ⟨_, _, i, hi, -, he⟩ <;>
    cases hin.symm.trans hi
  · exact ⟨rfl, _, answerStatus_refuse _ _, by decide⟩
  · obtain ⟨st, d, hr⟩ := he.response
    exact ⟨he.outside.1, _, answerStatus_of_rsp hr, st.code_le⟩

/-- Settles O20: neither RST nor a refusal nor any effect writes what is outside the unit. -/
theorem streamAndParametersAreConstant : Obligations.StreamAndParametersAreConstant := by
  intro s t h
  rcases step_cases h with ⟨-, rfl⟩ | ⟨_, -, rfl⟩ | ⟨_, _, _, -, -, rfl⟩ | ⟨_, _, i, -, -, he⟩
  · exact ⟨rfl, rfl, rfl⟩
  · exact ⟨rfl, rfl, rfl⟩
  · exact ⟨rfl, rfl, rfl⟩
  · obtain ⟨-, hp, hs, hl⟩ := he.outside
    exact ⟨hs, hl, hp⟩

/-! ## The invariants, per way to change the state -/

section
variable {s : State}

/-- Outside FAULTED no fault is recorded. -/
theorem State.Inv.no_fault (h : s.Inv) (hm : s.mode ≠ .faulted) : s.fault = 0 ∧ s.faultAddr = 0 := by
  have hf : s.fault = 0 := not_not.1 (mt h.faulted.2 hm)
  exact ⟨hf, by rw [h.faultAddr, hf]; rfl⟩

/-- The grid may be any canonical buffer; the two channels are free. -/
theorem State.Inv.with_grid (h : s.Inv) {g : Memory} (hw : g.wf) (hb : g.below s.gridBytes) (l : List HostInput)
    (r : Option Word48) : ({ s with grid := g, inputs := l, rsp := r } : State).Inv where
  dims := h.dims
  unconf := h.unconf
  faulted := h.faulted
  faultCode := h.faultCode
  faultAddr := h.faultAddr
  cursor := h.cursor
  header := h.header
  capacity := h.capacity
  standAlone := h.standAlone
  frames := h.frames
  gridForm := hw
  gridBelow := hb
  streamForm := h.streamForm

theorem State.Inv.with_channels (h : s.Inv) (l : List HostInput) (r : Option Word48) :
    ({ s with inputs := l, rsp := r } : State).Inv := h.with_grid h.gridForm h.gridBelow l r

/-- In DEC the cursor and the frame count may move within the bounds of R31 and R46. -/
theorem State.Inv.with_position (h : s.Inv) (hm : s.mode = .dec) {c n : Word} {g : Memory} (hc : 128 ≤ c.toNat)
    (hl : c.toNat ≤ s.streamLen.toNat) (hn : 128 + 6 * n.toNat ≤ c.toNat) (hw : g.wf) (hb : g.below s.gridBytes)
    (r : Option Word48) : ({ s with cursor := c, frameId := n, grid := g, rsp := r } : State).Inv where
  dims := h.dims
  unconf := fun hu => nomatch hm.symm.trans hu
  faulted := h.faulted
  faultCode := h.faultCode
  faultAddr := by
    obtain ⟨hf, ha⟩ := h.no_fault (by simp [hm])
    show s.faultAddr = if 6 ≤ s.fault.toNat then c else 0
    rw [hf, ha]
    rfl
  cursor := fun _ => ⟨hc, hl⟩
  header := h.header
  capacity := h.capacity
  standAlone := fun hg => nomatch hm.symm.trans hg
  frames := fun _ => hn
  gridForm := hw
  gridBelow := hb
  streamForm := h.streamForm

/-- Taking a fault, with the address that R33 prescribes for its code. -/
theorem State.Inv.raised (h : s.Inv) {f : FaultCode} {addr l : Word} {g : Memory}
    (ha : addr = if 6 ≤ f.code.toNat then s.cursor else 0) (hw : g.wf) (hb : g.below s.gridBytes) (n : Nat) :
    (State.raise { s with streamLen := l, grid := g, freeCount := n } f addr).Inv where
  dims := h.dims
  unconf := nofun
  faulted := ⟨fun _ => by show f.code ≠ 0; cases f <;> decide, fun _ => rfl⟩
  faultCode := by show f.code.toNat ≤ 9; cases f <;> decide
  faultAddr := ha
  cursor := nofun
  header := nofun
  capacity := h.capacity
  standAlone := nofun
  frames := nofun
  gridForm := hw
  gridBelow := hb
  streamForm := h.streamForm

/-- Hardware reset leaves nothing but the stream to ask for. -/
theorem State.inv_hardReset (h : Memory.wf s.stream) : s.hardReset.Inv where
  dims := ⟨Nat.zero_le _, Nat.zero_le _⟩
  unconf := fun _ => ⟨rfl, rfl, rfl, rfl, rfl, rfl, rfl⟩
  faulted := ⟨nofun, fun hf => absurd rfl hf⟩
  faultCode := Nat.zero_le _
  faultAddr := rfl
  cursor := nofun
  header := nofun
  capacity := by rw [State.gridBytes_eq_zero (Or.inl rfl)]; exact Nat.zero_le _
  standAlone := nofun
  frames := nofun
  gridForm := Memory.wf_nil
  gridBelow := nofun
  streamForm := h

/-- An accepted GNEW whose operands fit their fields (`40_grid_commands.md` R132). -/
theorem State.Inv.created (h : s.Inv) (hm : s.mode = .unconf) {w ht : Nat} (hw : w ≤ 32767) (hh : ht ≤ 32767)
    (hf : gridBytesOf w ht ≤ s.params.gridCapBytes.val) (r : Option Word48) :
    ({ s with
      width := BitVec.ofNat 16 w, height := BitVec.ofNat 16 ht, mode := .grid, grid := [], rsp := r } : State).Inv := by
  obtain ⟨-, -, hfault, hcursor, hlen, hid, hcount⟩ := h.unconf hm
  have hw' : (BitVec.ofNat 16 w).toNat = w := by rw [BitVec.toNat_ofNat]; omega
  have hh' : (BitVec.ofNat 16 ht).toNat = ht := by rw [BitVec.toNat_ofNat]; omega
  exact
    { dims := ⟨hw'.trans_le hw, hh'.trans_le hh⟩
      unconf := nofun
      faulted := ⟨nofun, fun hne => absurd hfault hne⟩
      faultCode := h.faultCode
      faultAddr := h.faultAddr
      cursor := nofun
      header := nofun
      capacity := by simpa only [State.gridBytes, hw', hh'] using hf
      standAlone := fun _ => ⟨hcursor, hlen, hid, hcount⟩
      frames := nofun
      gridForm := Memory.wf_nil
      gridBelow := nofun
      streamForm := h.streamForm }

/-- What an accepted header guarantees (`41_decoder_commands.md` R161). -/
theorem Params.dims_of_headerFault_none {p : Params} {hd : Header} (hf : Params.headerFault p hd = none) :
    hd.width ≤ 32767 ∧ hd.height ≤ 32767 ∧ gridBytesOf hd.width hd.height ≤ p.gridCapBytes.val := by
  unfold Params.headerFault at hf
  split at hf
  · cases hf
  · split at hf
    · cases hf
    · split at hf
      · cases hf
      · next hdim =>
        split at hf
        · next hfit =>
          obtain ⟨hw, hh⟩ := not_or.1 hdim
          exact ⟨not_lt.1 hw, not_lt.1 hh, of_decide_eq_true hfit⟩
        · cases hf

/-- A successful DINIT (`41_decoder_commands.md` R161). -/
theorem State.Inv.constructed (h : s.Inv) (hm : s.mode = .unconf) {hd : Header}
    (hr : s.latchLen.headerRead = some hd) (hf : Params.headerFault s.params hd = none) :
    (s.latchLen.construct hd).Inv := by
  obtain ⟨-, -, hfault, -⟩ := h.unconf hm
  obtain ⟨-, hfaultAddr⟩ := h.no_fault (by simp [hm])
  obtain ⟨hw, hh, hcap⟩ := Params.dims_of_headerFault_none hf
  have hw' : (BitVec.ofNat 16 hd.width).toNat = hd.width := by rw [BitVec.toNat_ofNat]; omega
  have hh' : (BitVec.ofNat 16 hd.height).toNat = hd.height := by rw [BitVec.toNat_ofNat]; omega
  have hlen : 128 ≤ s.smLen.toNat := by
    by_contra hlt
    rw [show s.latchLen.headerRead = none from if_pos (not_le.1 hlt)] at hr
    cases hr
  exact
    { dims := ⟨hw'.trans_le hw, hh'.trans_le hh⟩
      unconf := nofun
      faulted := ⟨nofun, fun hne => absurd hfault hne⟩
      faultCode := h.faultCode
      faultAddr := by
        show s.faultAddr = if 6 ≤ s.fault.toNat then BitVec.ofNat 32 headerBytes else 0
        rw [hfault, hfaultAddr]
        rfl
      cursor := fun _ => ⟨le_refl _, hlen⟩
      header := fun _ => ⟨hd, hr, hf, rfl, rfl, rfl⟩
      capacity := by
        rw [State.gridBytes, State.construct_width, State.construct_height, hw', hh']
        exact hcap
      standAlone := nofun
      frames := fun _ => le_refl _
      gridForm := Memory.wf_nil
      gridBelow := nofun
      streamForm := h.streamForm }

end

/-! ## The invariants, per effect -/

/-- A cell write by its wrapped coordinates stays in the buffer. -/
theorem State.below_writeCell {s : State} (hb : s.grid.below s.gridBytes) (hw : 0 < s.width.toNat)
    (hh : 0 < s.height.toNat) (x y : Int) (v : Bool) :
    Memory.below (writeCell s.stride s.grid (s.wrapX x) (s.wrapY y) v) s.gridBytes :=
  Memory.below_write hb (byteIndex_lt_gridBytesOf (wrapCoord_lt hw x) (wrapCoord_lt hh y)) _

/-- A frame moves the position within the bounds: FRAME_ID counts at most one per six bytes (`10_state.md` R31). -/
theorem State.Inv.frameDone {s : State} (h : s.Inv) (hm : s.mode = .dec) {n : Nat} {g : Memory}
    (hl : s.cursor.toNat + 6 + n ≤ s.streamLen.toNat) (hg : g.wf) (hb : g.below s.gridBytes) :
    (s.frameDone n g).Inv := by
  have hlen := s.streamLen.isLt
  have hframes := h.frames hm
  obtain ⟨hlow, -⟩ := h.cursor hm
  have hc : (BitVec.ofNat 32 (s.cursor.toNat + 6 + n)).toNat = s.cursor.toNat + 6 + n := by
    rw [BitVec.toNat_ofNat]
    omega
  have hid : (s.frameId + 1).toNat = s.frameId.toNat + 1 := by
    rw [BitVec.toNat_add]
    exact Nat.mod_eq_of_lt (by show s.frameId.toNat + 1 < 2 ^ 32; omega)
  rw [frameDone_eq]
  exact h.with_position hm (by omega) (by omega) (by omega) hg hb _

/-- Every effect of a well-formed instruction keeps the invariants. -/
theorem Effect.keeps_inv {s t : State} {i : Instr} (he : Effect s i t) (hi : i.wellFormed = true) (h : s.Inv) :
    t.Inv := by
  cases he with
  | refused | read => exact h.with_channels _ _
  | created w ht hm hw hh hf =>
    obtain ⟨hwf, hhf⟩ := Bool.and_eq_true_iff.1 hi
    lift w to ℕ using hw
    lift ht to ℕ using hh
    have le_of : ∀ n : Nat, isSigned16 n = true → n ≤ 32767 := fun n hn => by
      have := of_decide_eq_true (Bool.and_eq_true_iff.1 hn).2
      omega
    simp only [BitVec.ofInt_natCast]
    exact h.created hm (le_of _ hwf) (le_of _ hhf) hf _
  | cellWritten i x y v _ hw hh =>
    exact h.with_grid (wf_writeCell h.gridForm _ _ _ _) (State.below_writeCell h.gridBelow hw hh x y v) _ _
  | cleared => exact h.with_grid Memory.wf_nil nofun _ _
  | byteWritten idx data _ hidx =>
    exact h.with_grid (Memory.wf_write h.gridForm _ _) (Memory.below_write h.gridBelow hidx _) _ _
  | notConstructed f hm hf => exact h.raised (if_neg (by omega)).symm h.gridForm h.gridBelow _
  | constructed hd hm hr hf => exact h.constructed hm hr hf
  | ended i _ hm =>
    obtain ⟨hlow, hhigh⟩ := h.cursor hm
    exact h.with_position hm (hlow.trans hhigh) le_rfl ((h.frames hm).trans hhigh) h.gridForm h.gridBelow _
  | chunkFault i f _ hm hf =>
    exact h.raised (if_pos hf).symm (Memory.wf_ofBytes _) (Memory.below_ofBytes (List.length_take_le _ _)) _
  | frame i g _ hm hl hg hb => exact h.frameDone hm hl hg hb
  | rewound hm =>
    obtain ⟨hlow, hhigh⟩ := h.cursor hm
    exact h.with_position (c := 128) (n := 0) hm le_rfl (hlow.trans hhigh) le_rfl Memory.wf_nil nofun _

/-- Settles O11: RST resets, a refusal touches the channels, and a decoded instruction is well formed. -/
theorem stepKeepsInvariant : Obligations.StepKeepsInvariant := by
  intro s t h hstep
  rcases step_cases hstep with ⟨-, rfl⟩ | ⟨rest, -, rfl⟩ | ⟨_, rest, e, -, -, rfl⟩ | ⟨w, rest, i, -, hd, he⟩
  · exact h
  · exact State.inv_hardReset h.streamForm
  · exact h.with_channels _ _
  · exact he.keeps_inv (encodeInvertsDecodeOfCommands w i hd).2 (h.with_channels rest s.rsp)

/-- Settles O12: the state after reset is its own hardware reset. -/
theorem resetMeetsInvariant : Obligations.ResetMeetsInvariant := by
  have hinv : ∀ p : Params, (State.resetWith p).Inv := fun p =>
    State.inv_hardReset (s := State.resetWith p) Memory.wf_nil
  exact ⟨hinv _, hinv⟩

end Sys2Proof.Machine
end

section
/-! PROOFS. What the status of a response tells of the effect (`30_encoding.md` R112, R113), and with it the statements
on legality, on STATE, on the cursor and on faults. -/

namespace Sys2Proof.Machine

/-! ## The effect behind a status -/

section
variable {s t : State} {i : Instr}

/-- REFUSED comes from a refusal, BAD_STATE exactly where the instruction is not legal. -/
theorem Effect.refused_of_status (h : Effect s i t) (hs : answerStatus t = some 2) :
    ∃ r, t = s.refuse r ∧ (r = .badState ↔ s.mode ∉ legalModes i) := by
  cases h with
  | refused _ r hr => exact ⟨r, rfl, hr⟩
  | read | created | cellWritten | cleared | byteWritten | constructed | frame | rewound => simp at hs
  | ended | notConstructed | chunkFault => simp at hs

/-- NONE comes from end of stream. -/
theorem Effect.ended_of_status (h : Effect s i t) (hs : answerStatus t = some 1) :
    runsChunk i = true ∧ s.mode = .dec ∧ t = s.endOfStream := by
  cases h with
  | ended _ hc hm => exact ⟨hc, hm, rfl⟩
  | read | created | cellWritten | cleared | byteWritten | constructed | frame | rewound => simp at hs
  | refused | notConstructed | chunkFault => simp at hs

/-- FAULT comes from DINIT in UNCONF, or from a chunk in DEC. -/
theorem Effect.fault_of_status (h : Effect s i t) (hs : answerStatus t = some 3) :
    (i = .dinit ∧ s.mode = .unconf ∧ ∃ f, t = s.latchLen.raise f 0)
      ∨ (runsChunk i = true ∧ s.mode = .dec
          ∧ ∃ f, t = s.raiseChunk f ∧ 6 ≤ f.code.toNat ∧ f.code.toNat ≤ 9) := by
  cases h with
  | notConstructed f hm => exact Or.inl ⟨rfl, hm, f, rfl⟩
  | chunkFault _ f hc hm hlow hhigh => exact Or.inr ⟨hc, hm, f, rfl, hlow, hhigh⟩
  | read | created | cellWritten | cleared | byteWritten | constructed | frame | rewound => simp at hs
  | refused | ended => simp at hs

/-- OK of GNEW: in UNCONF, a grid was created. -/
theorem Effect.created_of_ok {w ht : Int} (h : Effect s (.gnew w ht) t) (hs : answerStatus t = some 0) :
    s.mode = .unconf ∧ t.mode = .grid := by
  cases h with
  | created _ _ hm => exact ⟨hm, rfl⟩
  | refused => simp at hs
  | read _ _ _ hi | cellWritten _ _ _ _ _ _ _ hi => simp at hi
  | ended _ hc | chunkFault _ _ hc | frame _ _ hc => cases hc

/-- OK of DINIT: in UNCONF, a decoder was constructed. -/
theorem Effect.constructed_of_ok (h : Effect s .dinit t) (hs : answerStatus t = some 0) :
    s.mode = .unconf ∧ ∃ hd, t = s.latchLen.construct hd := by
  cases h with
  | constructed hd hm => exact ⟨hm, hd, rfl⟩
  | refused | notConstructed => simp at hs
  | read _ _ _ hi | cellWritten _ _ _ _ _ _ _ hi => simp at hi
  | ended _ hc | chunkFault _ _ hc | frame _ _ hc => cases hc

/-- OK of DREW: the decoder was rewound. -/
theorem Effect.rewound_of_ok (h : Effect s .drew t) (hs : answerStatus t = some 0) : t.cursor = 128 := by
  cases h with
  | rewound => rfl
  | refused => simp at hs
  | read _ _ _ hi | cellWritten _ _ _ _ _ _ _ hi => simp at hi
  | ended _ hc | chunkFault _ _ hc | frame _ _ hc => cases hc

/-- OK of DNEXT or a chunk form: a frame, inside the buffer. -/
theorem Effect.frame_of_ok (h : Effect s i t) (hi : runsChunk i = true) (hs : answerStatus t = some 0) :
    s.cursor.toNat + 6 + chunkSize i s ≤ s.streamLen.toNat ∧ ∃ g, t = s.frameDone (chunkSize i s) g := by
  cases h with
  | frame _ g _ _ hl => exact ⟨hl, g, rfl⟩
  | refused | ended | chunkFault => simp at hs
  | read _ _ _ hr => rcases hr with ⟨_, _, rfl⟩ | ⟨_, rfl⟩ | rfl | ⟨_, rfl⟩ <;> cases hi
  | cellWritten _ _ _ _ _ _ _ hr => rcases hr with rfl | rfl <;> cases hi
  | created | cleared | byteWritten | notConstructed | constructed | rewound => cases hi

end

/-! ## Legality (`30_encoding.md` R106) -/

/-- The reason can be read off a refusal's response. -/
theorem Reason.eq_badState_of_response {r : Reason}
    (h : responseWord .refused 0 (byteData r.code) = rsp48 2 0 3) : r = .badState := by
  revert h
  cases r <;> decide

/-- Settles O15: a response BAD_STATE comes from a refusal for that reason, which legality excludes. -/
theorem legalityByState : Obligations.LegalityByState := by
  intro i s
  refine ⟨exec_of_not_legal, fun hm t ht hrsp => ?_⟩
  have hs : answerStatus t = some 2 := by rw [answerStatus, hrsp]; decide
  obtain ⟨r, rfl, hr⟩ := (effect_of_exec ht).refused_of_status hs
  exact hr.1 (Reason.eq_badState_of_response (Option.some.inj hrsp)) hm

/-! ## FAULTED (`60_exceptions.md` R242) -/

/-- In FAULTED an instruction writes the response at most. -/
theorem Effect.of_faulted {s t : State} {i : Instr} (h : Effect s i t) (hm : s.mode = .faulted) :
    t = { s with rsp := t.rsp } := by
  have mode_ne : ∀ m : Mode, m ≠ .faulted → s.mode ≠ m := fun m hne he => hne (he.symm.trans hm)
  cases h with
  | refused | read => rfl
  | created _ _ h | notConstructed _ h | constructed _ h => exact absurd h (mode_ne _ (by decide))
  | cellWritten _ _ _ _ h | cleared h | byteWritten _ _ h => exact absurd h (mode_ne _ (by decide))
  | ended _ _ h | chunkFault _ _ _ h | frame _ _ _ h | rewound h => exact absurd h (mode_ne _ (by decide))

/-- Settles O16: of the instructions only RDSR is legal there, and of the events only RST writes more than channels. -/
theorem faultedIsLeftOnlyByReset : Obligations.FaultedIsLeftOnlyByReset := by
  intro s hm
  refine ⟨fun i hi => exec_of_not_legal ?illegal, fun t ht hne => ?events, fun rest hin => ?reset⟩
  case illegal =>
    rw [hm]
    cases i with
    | rdsr n => exact absurd rfl (hi n)
    | _ => simp [legalModes]
  case events =>
    rcases step_cases ht with ⟨-, rfl⟩ | ⟨_, hin, -⟩ | ⟨_, _, _, -, -, rfl⟩ | ⟨_, rest, _, -, -, he⟩
    · rfl
    · exact absurd (congrArg List.head? hin) hne
    · rfl
    · have heq := he.of_faulted hm
      rw [heq]
      rfl
  case reset => exact ⟨_, step_of_rst hin, rfl, rfl, rfl, by simp [legalModes]⟩

/-! ## WIDTH and HEIGHT (`10_state.md` R25), STATE (R40) -/

/-- Settles O17: of all effects two write the dimensions. -/
theorem dimensionsAreWrittenOnce : Obligations.DimensionsAreWrittenOnce := by
  intro i s t h hne
  cases effect_of_exec h with
  | created w ht hm => exact ⟨hm, by simp, Or.inl ⟨w, ht, rfl⟩⟩
  | constructed _ hm => exact ⟨hm, by simp, Or.inr rfl⟩
  | refused | read | cellWritten | cleared | byteWritten | ended | frame | rewound => simp at hne
  | notConstructed | chunkFault => simp at hne

/-- STATE changes only with a fault or an OK of GNEW or DINIT. -/
theorem Effect.mode_eq {s t : State} {i : Instr} (h : Effect s i t) (hf : answerStatus t ≠ some 3)
    (hok : answerStatus t = some 0 → (∀ w ht, i ≠ .gnew w ht) ∧ i ≠ .dinit) : t.mode = s.mode := by
  cases h with
  | refused | read | cellWritten | cleared | byteWritten | ended | frame | rewound => rfl
  | created w ht => exact absurd rfl ((hok (by simp)).1 w ht)
  | constructed => exact absurd rfl (hok (by simp)).2
  | notConstructed | chunkFault => simp at hf

/-- Settles O22: by the status of the answer, and for the other steps by what they did. -/
theorem stateTransitions : Obligations.StateTransitions := by
  refine ⟨fun i s t h => ?executed, fun s t h => ?other⟩
  case executed =>
    have he := effect_of_exec h
    refine ⟨?gnew, ?dinit, fun hs => ?fault, he.mode_eq⟩
    case gnew =>
      rintro hs ⟨w, ht, rfl⟩
      exact he.created_of_ok hs
    case dinit =>
      rintro hs rfl
      obtain ⟨hm, hd, rfl⟩ := he.constructed_of_ok hs
      exact ⟨hm, rfl⟩
    case fault =>
      rcases he.fault_of_status hs with ⟨hi, hm, f, rfl⟩ | ⟨hi, hm, f, rfl, -⟩
      · exact ⟨rfl, Or.inl ⟨hm, hi⟩⟩
      · exact ⟨rfl, Or.inr ⟨hm, hi⟩⟩
  case other =>
    refine ⟨fun hin => ?idle, fun rest hin => ?rst, fun w rest e hin hd => ?reject⟩
    case idle =>
      rw [idleStepChangesNothing s hin] at h
      cases h
      rfl
    case rst =>
      rw [step_of_rst hin] at h
      cases h
      rfl
    case reject =>
      rw [step_of_reject hin hd] at h
      cases h
      rfl

/-! ## Responses (`30_encoding.md` R113, `60_exceptions.md` R230, R240) -/

/-- The response of a fault carries its code. -/
theorem State.raise_rsp_eq (s : State) (f : FaultCode) (addr : Word) :
    (s.raise f addr).rsp = some (rsp48 3 0 (s.raise f addr).fault.toNat) := by
  rw [State.raise_rsp, responseWord_eq, toNat_byteData]
  rfl

/-- Settles O19: by the status of the answer; FAULTED is entered by a fault. -/
theorem responseStatusByCommand : Obligations.ResponseStatusByCommand := by
  intro i s t h
  have he := effect_of_exec h
  refine ⟨fun hs => ?none, fun hs => ?fault, fun ht hm => ?entered⟩
  case none =>
    obtain ⟨hi, -, rfl⟩ := he.ended_of_status hs
    exact ⟨hi, rfl⟩
  case fault =>
    rcases he.fault_of_status hs with ⟨hi, -, f, rfl⟩ | ⟨hi, -, f, rfl, -⟩
    · exact ⟨Or.inr hi, rfl, State.raise_rsp_eq _ f _⟩
    · exact ⟨Or.inl hi, rfl, State.raise_rsp_eq _ f _⟩
  case entered =>
    by_contra hs
    refine hm ((he.mode_eq hs fun hok => ⟨?_, ?_⟩).symm.trans ht)
    · rintro w k rfl
      exact nomatch (he.created_of_ok hok).2.symm.trans ht
    · rintro rfl
      obtain ⟨-, hd, rfl⟩ := he.constructed_of_ok hok
      cases ht

/-- Settles O48: entering FAULTED is answered FAULT, and in DEC that is the fault of a chunk. -/
theorem chunkFaultsArePrecise : Obligations.ChunkFaultsArePrecise := by
  intro i s t hi hm h ht
  have hs := (responseStatusByCommand i s t h).2.2 ht (by simp [hm])
  rcases (effect_of_exec h).fault_of_status hs with ⟨-, hu, -⟩ | ⟨-, -, f, rfl, hlow, hhigh⟩
  · exact nomatch hm.symm.trans hu
  · refine ⟨?_, hlow, hhigh⟩
    rw [State.raiseChunk_eq, ← State.raise_rsp_eq s.looseGrid f s.cursor]
    rfl

/-! ## The cursor (`41_decoder_commands.md` R168) -/

/-- A frame moves the cursor past its chunk. -/
theorem State.toNat_cursor_frameDone {s : State} {n : Nat} (g : Memory)
    (hl : s.cursor.toNat + 6 + n ≤ s.streamLen.toNat) : (s.frameDone n g).cursor.toNat = s.cursor.toNat + 6 + n := by
  have hlen := s.streamLen.isLt
  show (BitVec.ofNat 32 (s.cursor.toNat + 6 + n)).toNat = _
  rw [BitVec.toNat_ofNat]
  omega

/-- The cursor moves only with NONE and with an OK of DINIT, DREW or a chunk. -/
theorem Effect.cursor_eq {s t : State} {i : Instr} (h : Effect s i t) (hn : answerStatus t ≠ some 1)
    (hok : answerStatus t = some 0 → i ≠ .dinit ∧ i ≠ .drew ∧ runsChunk i = false) : t.cursor = s.cursor := by
  cases h with
  | refused | read | created | cellWritten | cleared | byteWritten | notConstructed | chunkFault => rfl
  | constructed => exact absurd rfl (hok (by simp)).1
  | rewound => exact absurd rfl (hok (by simp)).2.1
  | frame _ _ hc => exact nomatch hc.symm.trans (hok (by simp)).2.2
  | ended => simp at hn

/-- In a state that meets the invariants only DREW moves the cursor back. -/
theorem Effect.cursor_le {s t : State} {i : Instr} (h : Effect s i t) (hinv : s.Inv) (hi : i ≠ .drew) :
    s.cursor.toNat ≤ t.cursor.toNat := by
  cases h with
  | refused | read | created | cellWritten | cleared | byteWritten | notConstructed | chunkFault => exact le_rfl
  | constructed _ hm =>
    obtain ⟨-, -, -, hcursor, -⟩ := hinv.unconf hm
    rw [hcursor]
    exact Nat.zero_le _
  | ended _ _ hm => exact (hinv.cursor hm).2
  | frame _ g _ _ hl =>
    rw [State.toNat_cursor_frameDone g hl]
    omega
  | rewound => exact absurd rfl hi

/-- Settles O18: each movement by the status of its answer. -/
theorem cursorMovements : Obligations.CursorMovements := by
  intro i s t h
  have he := effect_of_exec h
  refine ⟨fun hs hi => ?entry, fun hs hi => ?past, fun hs => ?pinned, he.cursor_eq, he.cursor_le⟩
  case entry =>
    rcases hi with rfl | rfl
    · obtain ⟨-, hd, rfl⟩ := he.constructed_of_ok hs
      rfl
    · exact he.rewound_of_ok hs
  case past =>
    obtain ⟨hl, g, rfl⟩ := he.frame_of_ok hi hs
    rw [State.toNat_cursor_frameDone g hl]
    exact ⟨rfl, hl⟩
  case pinned =>
    obtain ⟨-, -, rfl⟩ := he.ended_of_status hs
    rfl

/-! ## Grid commands -/

/-- A grid command runs no chunk. -/
theorem not_runsChunk_of_isGridCommand {i : Instr} (h : isGridCommand i = true) : ¬ runsChunk i = true := by
  cases i with
  | dinit | dnext | dfin | drew | rdsr | frameRaw | frameRle => cases h
  | _ => exact nofun

/-- Settles O37: none of the effects of a grid command writes more. -/
theorem gridCommandsLeaveTheDecoder : Obligations.GridCommandsLeaveTheDecoder := by
  intro i s t hi h
  cases effect_of_exec h with
  | refused | read | cellWritten | cleared | byteWritten => exact ⟨rfl, fun _ => rfl⟩
  | created w ht => exact ⟨rfl, fun hne => absurd rfl (hne w ht)⟩
  | notConstructed | constructed | rewound => cases hi
  | ended _ hc | chunkFault _ _ hc | frame _ _ hc => exact absurd hc (not_runsChunk_of_isGridCommand hi)

end Sys2Proof.Machine
end

section
/-! PROOFS. The laws of the grid (`40_grid_commands.md` R131, R139, R141): wrapping, the buffer's bound, and what a read
after a write answers. -/

namespace Sys2Proof.Machine

/-! ## Wrapping and the buffer -/

/-- A wrapped coordinate is congruent to the coordinate (`40_grid_commands.md` R131). -/
theorem exists_eq_mul_add_wrapCoord {dim : Nat} (h : 0 < dim) (x : Int) : ∃ k : Int, x = k * dim + wrapCoord x dim := by
  refine ⟨x / dim, ?_⟩
  rw [wrapCoord, Int.toNat_of_nonneg (Int.emod_nonneg x (by omega)), Int.ediv_mul_add_emod]

/-- Settles O32: by the two facts about one wrapped coordinate. -/
theorem wrappingIsEuclidean : Obligations.WrappingIsEuclidean :=
  fun _ x y hw hh => ⟨wrapCoord_lt hw x, wrapCoord_lt hh y, exists_eq_mul_add_wrapCoord hw x,
    exists_eq_mul_add_wrapCoord hh y⟩

/-- Settles O33: a wrapped cell is canonical; a row of at most 32767 columns takes at most 4096 bytes. -/
theorem cellsLieInTheBuffer : Obligations.CellsLieInTheBuffer := by
  intro s x y hw hh
  refine ⟨byteIndex_lt_gridBytesOf (wrapCoord_lt hw x) (wrapCoord_lt hh y), fun hw' hh' => ?_⟩
  have hstride : strideOf s.width.toNat ≤ 4096 := by
    unfold strideOf
    omega
  calc s.gridBytes = strideOf s.width.toNat * s.height.toNat := rfl
    _ ≤ 4096 * 32767 := Nat.mul_le_mul hstride hh'
    _ = 134213632 := rfl

/-! ## Reads after writes -/

/-- The state an accepted GSET leaves (`40_grid_commands.md` R134). -/
def State.gsetDone (s : State) (x y : Int) (v : Bool) : State :=
  { s with
    grid := writeCell s.stride s.grid (colOf s x) (rowOf s y) v
    rsp := some (rsp48 0 0 (cellBit s (colOf s x) (rowOf s y)).toNat) }

section
variable {s : State} (x y : Int) (v : Bool)

theorem execGset_eq_gsetDone (hm : s.mode = .grid) (hw : 0 < s.width.toNat) (hh : 0 < s.height.toNat) :
    exec (.gset x y v) s = .next (s.gsetDone x y v) := execGset_of_pos x y v hm hw hh

@[simp] theorem State.colOf_gsetDone (x' : Int) : colOf (s.gsetDone x y v) x' = colOf s x' := rfl
@[simp] theorem State.rowOf_gsetDone (y' : Int) : rowOf (s.gsetDone x y v) y' = rowOf s y' := rfl

/-- A cell after GSET: the value written if it is the same cell, else as it was (`40_grid_commands.md` R141 (1)). -/
theorem cellBit_gsetDone (hw : 0 < s.width.toNat) (x' y' : Int) :
    cellBit (s.gsetDone x y v) (colOf s x') (rowOf s y')
      = if colOf s x' = colOf s x ∧ rowOf s y' = rowOf s y then v else cellBit s (colOf s x') (rowOf s y') := by
  have hcell : byteIndex s.stride (colOf s x') (rowOf s y') = byteIndex s.stride (colOf s x) (rowOf s y)
        ∧ bitOffset (colOf s x') = bitOffset (colOf s x)
      ↔ colOf s x' = colOf s x ∧ rowOf s y' = rowOf s y :=
    ⟨fun ⟨hb, ho⟩ => cell_place_injective (wrapCoord_lt hw x') (wrapCoord_lt hw x) hb ho,
      fun ⟨hc, hr⟩ => by rw [hc, hr]; exact ⟨rfl, rfl⟩⟩
  exact (getLsbD_read_writeCell s.stride s.grid _ _ v _ _).trans (if_congr hcell rfl rfl)

end

/-- Settles O34: GSET is one cell write, which GGET reads back. -/
theorem getAfterSet : Obligations.GetAfterSet := by
  intro s x y x' y' v hm hw hh
  refine ⟨_, execGset_eq_gsetDone x y v hm hw hh, ?_⟩
  rw [← cellBit_gsetDone x y v hw]
  exact execGget_of_pos (s := s.gsetDone x y v) (by simp [State.gsetDone, hm, legalModes]) hw hh

/-- Writing a cell's own value over any other restores the buffer, as data. -/
theorem writeCell_restores {g : Memory} (hg : g.wf) (stride x y : Nat) (v : Bool) :
    writeCell stride (writeCell stride g x y v) x y (readCell stride g x y) = g := by
  refine Memory.ext_of_wf (wf_writeCell (wf_writeCell hg _ _ _ _) _ _ _ _) hg fun a => ?_
  refine BitVec.eq_of_getLsbD_eq fun k _ => ?_
  rw [getLsbD_read_writeCell, getLsbD_read_writeCell, readCell_eq_getLsbD]
  split
  · next h => rw [h.1, h.2]
  · rfl

/-- Setting a cell and then setting it back restores the buffer; only the response is new. -/
theorem State.gsetDone_gsetDone {s : State} (hg : Memory.wf s.grid) (hw : 0 < s.width.toNat) (x y : Int) (v : Bool) :
    (s.gsetDone x y v).gsetDone x y (cellBit s (colOf s x) (rowOf s y))
      = { s with rsp := some (rsp48 0 0 v.toNat) } := by
  have hgrid := writeCell_restores hg s.stride (colOf s x) (rowOf s y) v
  rw [show readCell s.stride s.grid _ _ = _ from s.cell_eq_cellBit (colOf s x) (rowOf s y)] at hgrid
  have hbit := cellBit_gsetDone x y v hw x y
  rw [if_pos ⟨rfl, rfl⟩] at hbit
  rw [State.gsetDone, State.colOf_gsetDone, State.rowOf_gsetDone, hbit]
  exact congrArg (fun g => { s with grid := g, rsp := some (rsp48 0 0 v.toNat) }) hgrid

/-- Settles O35: a flip is a GSET, and the second one sets the cell back. -/
theorem flipTwiceRestoresBuffer : Obligations.FlipTwiceRestoresBuffer := by
  intro s x y hm hw hh hg
  have hbit := cellBit_gsetDone x y (!cellBit s (colOf s x) (rowOf s y)) hw x y
  rw [if_pos ⟨rfl, rfl⟩] at hbit
  refine ⟨_, (execGflip_eq_execGset s x y).trans (execGset_eq_gsetDone x y _ hm hw hh), ?_⟩
  rw [execGflip_eq_execGset, State.colOf_gsetDone, State.rowOf_gsetDone, hbit, Bool.not_not,
    ← State.gsetDone_gsetDone hg hw x y]
  exact execGset_eq_gsetDone x y _ hm hw hh

/-- Settles O36: both read the byte of the wrapped cell. -/
theorem getIsABitOfTheByteRead : Obligations.GetIsABitOfTheByteRead := by
  intro s x y hm hw hh
  have hidx : byteIndex s.stride (colOf s x) (rowOf s y) < s.gridBytes :=
    byteIndex_lt_gridBytesOf (wrapCoord_lt hw x) (wrapCoord_lt hh y)
  exact ⟨_, execGrdb_of_lt (by simpa [legalModes] using hm) hidx,
    execGget_of_pos (by simpa [legalModes] using hm) hw hh⟩

/-! ## A cleared grid -/

/-- An accepted GCLR or GNEW leaves a grid that lists no byte. -/
theorem cleared_of_ok {i : Instr} {s t : State} (hi : i = .gclr ∨ ∃ w h, i = .gnew w h) (h : exec i s = .next t)
    (hs : answerStatus t = some 0) : t.mode = .grid ∧ t.grid = [] := by
  rcases hi with rfl | ⟨w, ht, rfl⟩
  · cases effect_of_exec h with
    | cleared hm => exact ⟨hm, rfl⟩
    | refused => simp at hs
    | read _ _ _ hi | cellWritten _ _ _ _ _ _ _ hi => simp at hi
    | ended _ hc | chunkFault _ _ hc | frame _ _ hc => cases hc
  · exact ⟨((effect_of_exec h).created_of_ok hs).2, grid_of_gnew_or_dinit_ok (Or.inl ⟨w, ht, rfl⟩) h hs⟩

/-- Settles O59: nothing is listed, so every byte and every bit reads 0. -/
theorem clearedGridReadsZero : Obligations.ClearedGridReadsZero := by
  intro i s t hi h hs
  obtain ⟨hm, hg⟩ := cleared_of_ok hi h hs
  refine ⟨fun hw hh x y => ?_, fun idx hidx => ?_⟩
  · rw [execGget_of_pos (by simp [hm, legalModes]) hw hh, cellBit, hg, Memory.read_nil]
    simp
  · rw [execGrdb_of_lt (by simp [hm, legalModes]) hidx, hg, Memory.read_nil]
    rfl

end Sys2Proof.Machine
end

section
/-! PROOFS. The two chunk forms (`42_chunk_execution.md` R194, R196), padding bits (`10_state.md` R24) and frames of DNEXT
(`41_decoder_commands.md` R163). -/

namespace Sys2Proof.Machine

/-! ## The stream -/

/-- The little-endian number of 1, 2 and 4 bytes of the stream (`20_memory.md` R62). -/
theorem leNat_bytes_one (s : State) (a : Nat) : leNat (s.stream.bytes a 1) = mem1 s a := by
  simp [Memory.bytes, leNat, mem1]

theorem leNat_bytes_two (s : State) (a : Nat) : leNat (s.stream.bytes a 2) = mem2 s a := by
  simp [Memory.bytes, List.range', leNat, mem1, mem2]

theorem leNat_bytes_four (s : State) (a : Nat) : leNat (s.stream.bytes a 4) = mem4 s a := by
  simp [Memory.bytes, List.range', leNat, mem1, mem4]
  ring

/-- Settles O39: inside the buffer `MemRead` gives the bytes of the stream. -/
theorem memReadIsLittleEndian : Obligations.MemReadIsLittleEndian := by
  intro s addr
  refine ⟨fun h => ?_, fun h => ?_, fun h => ?_, fun n h => State.memBytes_of_gt h⟩
  · rw [State.memBytes_of_le h, Option.map_some, leNat_bytes_one]
  · rw [State.memBytes_of_le h, Option.map_some, leNat_bytes_two]
  · rw [State.memBytes_of_le h, Option.map_some, leNat_bytes_four]

/-! ## Running a chunk -/

section
variable {s : State} {n : Nat} {body : List Byte → Except FaultCode Memory}

theorem State.runChunk_of_gt (hm : s.mode = .dec) (h : s.streamLen.toNat < s.cursor.toNat + 6 + n) :
    s.runChunk n body = .next s.endOfStream := by
  rw [runChunk, legalIn_of_mem (by simp [hm]), payloadRead_of_gt h]

theorem State.runChunk_of_ok {g : Memory} (hm : s.mode = .dec) (h : s.cursor.toNat + 6 + n ≤ s.streamLen.toNat)
    (hb : body (s.stream.bytes (s.cursor.toNat + 6) n) = .ok g) : s.runChunk n body = .next (s.frameDone n g) := by
  rw [runChunk, legalIn_of_mem (by simp [hm]), payloadRead_of_le h]
  simp only [hb]

theorem State.runChunk_of_error {f : FaultCode} (hm : s.mode = .dec) (h : s.cursor.toNat + 6 + n ≤ s.streamLen.toNat)
    (hb : body (s.stream.bytes (s.cursor.toNat + 6) n) = .error f) : s.runChunk n body = .next (s.raiseChunk f) := by
  rw [runChunk, legalIn_of_mem (by simp [hm]), payloadRead_of_le h]
  simp only [hb]

/-- An OK answer of a chunk tells that it is in the buffer and made a frame. -/
theorem State.runChunk_ok {t : State} (h : s.runChunk n body = .next t) (hs : answerStatus t = some 0) :
    ∃ g, body (s.stream.bytes (s.cursor.toNat + 6) n) = .ok g ∧ t = s.frameDone n g := by
  rcases runChunk_cases h with ⟨-, he⟩ | ⟨-, -, he⟩ | ⟨f, -, -, -, he⟩ | ⟨g, -, -, hb, he⟩ <;> cases he
  · simp at hs
  · simp at hs
  · simp at hs
  · exact ⟨g, hb, rfl⟩

end

/-- Settles O47: both forms run their chunk alike up to the payload. -/
theorem chunkFormsPastTheEnd : Obligations.ChunkFormsPastTheEnd := by
  intro s n b hm h
  rw [← endOfStream_eq]
  exact ⟨State.runChunk_of_gt hm h, State.runChunk_of_gt hm h⟩

/-! ## FRAME.RAW -/

theorem rawFrame_of_length {w ht : Nat} {payload : List Byte} (h : payload.length = gridBytesOf w ht) :
    rawFrame w ht payload = .ok (Memory.ofBytes payload) := if_neg (not_not.2 h)

theorem rawFrame_of_length_ne {w ht : Nat} {payload : List Byte} (h : payload.length ≠ gridBytesOf w ht) :
    rawFrame w ht payload = .error .rawLenMismatch := if_pos h

/-- Settles O44: the payload's length decides; its bytes are the buffer. -/
theorem frameRawCopiesPayload : Obligations.FrameRawCopiesPayload := by
  refine ⟨fun s n b hm h hn => ?copied, fun s n b hm h hn => ?mismatch, fun lo hi b => ?header⟩
  case copied =>
    refine ⟨_, State.runChunk_of_ok hm h (rawFrame_of_length ((Memory.length_bytes _ _ _).trans hn)),
      frameDone_eq s n _, fun i hi => ?_⟩
    rw [State.frameDone_grid, Memory.read_ofBytes, Memory.getD_bytes _ (hn ▸ hi)]
  case mismatch =>
    obtain ⟨g, m, hf⟩ := exists_raiseChunk_eq s .rawLenMismatch
    refine ⟨g, m, Eq.trans ?_ (congrArg _ hf)⟩
    exact State.runChunk_of_error hm h (rawFrame_of_length_ne fun hl => hn ((Memory.length_bytes _ _ _).symm.trans hl))
  case header =>
    rw [chunkHeaderBytesDecode, if_neg (by decide), if_pos rfl]

/-! ## FRAME.RLE -/

/-- The bits of a run-length frame are the set cells of its runs, in scan order (`42_chunk_execution.md` R196). -/
theorem rleFrame_of_le {w ht : Nat} {payload : List Byte} (h : runTotal payload ≤ w * ht) :
    ∃ g, rleFrame w ht payload = .ok g ∧ ∀ a k, (g.read a).getLsbD k = true
      ↔ ∃ q, q < w * ht ∧ (expandRuns false payload).getD q false = true
          ∧ a = byteIndex (strideOf w) (q % w) (q / w) ∧ k = bitOffset (q % w) := by
  obtain ⟨g, hg, hbits⟩ := rleWalk_of_le (w := w) (ht := ht) (g := []) (p := 0) ((Nat.zero_add _).trans_le h)
  exact ⟨g, hg, fun a k => by simpa using hbits a k⟩

theorem rleFrame_of_gt {w ht : Nat} {payload : List Byte} (h : w * ht < runTotal payload) :
    rleFrame w ht payload = .error .rleOverrun :=
  rleWalk_of_gt (Nat.zero_le _) (h.trans_eq (Nat.zero_add _).symm)

/-- Only runs that fit make a frame. -/
theorem rleFrame_fits {w ht : Nat} {payload : List Byte} {g : Memory} (h : rleFrame w ht payload = .ok g) :
    runTotal payload ≤ w * ht :=
  not_lt.1 fun hgt => nomatch (rleFrame_of_gt hgt).symm.trans h

/-! ## Scan order (`42_chunk_execution.md` R192) -/

/-- The scan index of a canonical cell is one of the CELLS indices. -/
theorem scanIndex_lt {w ht x y : Nat} (hx : x < w) (hy : y < ht) : y * w + x < w * ht :=
  calc y * w + x < y * w + w := Nat.add_lt_add_left hx _
    _ = w * (y + 1) := by ring
    _ ≤ w * ht := Nat.mul_le_mul_left w hy

/-- A scan index gives its cell's column and row back. -/
theorem scanIndex_mod_div {w x : Nat} (hx : x < w) (y : Nat) : (y * w + x) % w = x ∧ (y * w + x) / w = y := by
  constructor
  · rw [Nat.mul_comm, Nat.mul_add_mod, Nat.mod_eq_of_lt hx]
  · rw [Nat.mul_comm, Nat.mul_add_div (by omega), Nat.div_eq_of_lt hx, Nat.add_zero]

/-! ## The cells of a run-length frame -/

/-- The frame at a canonical cell: the run-length expansion at its scan index. -/
theorem rleFrame_cell {w ht : Nat} {payload : List Byte} {g : Memory} (h : rleFrame w ht payload = .ok g) {x y : Nat}
    (hx : x < w) (hy : y < ht) :
    readCell (strideOf w) g x y = (expandRuns false payload).getD (y * w + x) false := by
  obtain ⟨g', hg', hbits⟩ := rleFrame_of_le (rleFrame_fits h)
  cases h.symm.trans hg'
  have hq : ∀ q, (byteIndex (strideOf w) x y = byteIndex (strideOf w) (q % w) (q / w) ∧ bitOffset x = bitOffset (q % w))
      ↔ q = y * w + x := fun q => by
    constructor
    · rintro ⟨hb, ho⟩
      obtain ⟨hxq, hyq⟩ := cell_place_injective hx (Nat.mod_lt q (by omega)) hb ho
      rw [hxq, hyq, Nat.mul_comm, Nat.div_add_mod]
    · rintro rfl
      obtain ⟨hmod, hdiv⟩ := scanIndex_mod_div hx y
      rw [hmod, hdiv]
      exact ⟨rfl, rfl⟩
  rw [readCell_eq_getLsbD, Bool.eq_iff_iff, hbits]
  simp only [hq]
  exact ⟨fun ⟨q, _, hset, he⟩ => he ▸ hset, fun hset => ⟨_, scanIndex_lt hx hy, hset, rfl⟩⟩

/-- The frame at a bit that is no cell: unset. -/
theorem rleFrame_no_cell {w ht : Nat} {payload : List Byte} {g : Memory} (h : rleFrame w ht payload = .ok g) {a k : Nat}
    (hno : ∀ x y, x < w → y < ht → ¬ (a = byteIndex (strideOf w) x y ∧ k = bitOffset x)) :
    (g.read a).getLsbD k = false := by
  obtain ⟨g', hg', hbits⟩ := rleFrame_of_le (rleFrame_fits h)
  cases h.symm.trans hg'
  rw [← Bool.not_eq_true, hbits]
  rintro ⟨q, hq, -, hplace⟩
  have hpos : 0 < w := Nat.pos_of_mul_pos_right (Nat.zero_lt_of_lt hq)
  exact hno _ _ (Nat.mod_lt q hpos) (Nat.div_lt_of_lt_mul hq) hplace

/-- Settles O45: the frame's cells and the other bits. -/
theorem frameRleDrawsRuns : Obligations.FrameRleDrawsRuns := by
  intro s n b hm h hle
  obtain ⟨g, hg, -⟩ := rleFrame_of_le hle
  refine ⟨_, State.runChunk_of_ok hm h hg, frameDone_eq s n g, fun x y hx hy => ?_, fun a k hno => ?_⟩
  · rw [← rleFrame_cell hg hx hy]
    exact (State.cell_eq_cellBit (s.frameDone n g) x y).symm
  · exact rleFrame_no_cell hg hno

/-- Settles O46: the walk faults. -/
theorem frameRleOverrunFaults : Obligations.FrameRleOverrunFaults := by
  intro s n b hm h hgt
  obtain ⟨g, m, hf⟩ := exists_raiseChunk_eq s .rleOverrun
  exact ⟨g, m, (State.runChunk_of_error hm h (rleFrame_of_gt hgt)).trans (congrArg _ hf)⟩

/-! ## Padding bits (`10_state.md` R24) -/

/-- A padding bit is the place of no cell. -/
theorem padding_not_cell {w k x : Nat} (y y' : Nat) (hk : w ≤ 8 * (strideOf w - 1) + k) (hx : x < w) :
    ¬ (strideOf w - 1 + y * strideOf w = byteIndex (strideOf w) x y' ∧ k = bitOffset x) := by
  rintro ⟨hb, ho⟩
  have hdiv := div8_lt_strideOf hx
  have hcol : strideOf w - 1 = x / 8 := by
    have := congrArg (· % strideOf w) hb
    simp only [byteIndex, Nat.add_mul_mod_self_right] at this
    rwa [Nat.mod_eq_of_lt (by omega), Nat.mod_eq_of_lt hdiv] at this
  unfold bitOffset at ho
  omega

theorem isGridCommand_of_addressesCell {i : Instr} (h : addressesCell i = true) : isGridCommand i = true := by
  cases i with
  | gget | gset | gflip => rfl
  | _ => cases h

/-- A command that names a cell writes at most a canonical cell. -/
theorem Effect.grid_of_addressesCell {s t : State} {i : Instr} (h : Effect s i t) (hi : addressesCell i = true) :
    t.grid = s.grid ∨ ∃ x y v, x < s.width.toNat ∧ t.grid = writeCell s.stride s.grid x y v := by
  cases h with
  | refused | read => exact Or.inl rfl
  | cellWritten _ x y v _ hw => exact Or.inr ⟨_, _, _, wrapCoord_lt hw x, rfl⟩
  | created | cleared | byteWritten | notConstructed | constructed | rewound => cases hi
  | ended _ hc | chunkFault _ _ hc | frame _ _ hc =>
    exact absurd hc (not_runsChunk_of_isGridCommand (isGridCommand_of_addressesCell hi))

/-- Settles O38: a cell write changes the place of a cell, a run-length frame sets no other. -/
theorem paddingBitsAreNoCells : Obligations.PaddingBitsAreNoCells := by
  intro s t y k hy hk8 hk
  have kept : ∀ i, addressesCell i = true → exec i s = .next t →
      (t.grid.read (s.stride - 1 + y * s.stride)).getLsbD k
        = (s.grid.read (s.stride - 1 + y * s.stride)).getLsbD k := fun i hi h => by
    rcases (effect_of_exec h).grid_of_addressesCell hi with hg | ⟨x, y', v, hx, hg⟩
    · rw [hg]
    · rw [hg, getLsbD_read_writeCell]
      exact if_neg (padding_not_cell y y' hk hx)
  refine ⟨fun x' y' v => kept _ rfl, fun x' y' => kept _ rfl, fun n b h hs => ?_⟩
  obtain ⟨g, hg, rfl⟩ := State.runChunk_ok h hs
  exact rleFrame_no_cell hg fun x y' hx _ => padding_not_cell y y' hk hx

/-! ## DNEXT's frames (`41_decoder_commands.md` R163) -/

/-- The payload of the chunk at CURSOR. -/
def State.chunkPayload (s : State) : List Byte :=
  s.stream.bytes (s.cursor.toNat + 6) (mem2 s (s.cursor.toNat + 2))

/-- The chunk at CURSOR is of kind 1 and its form makes the buffer `g` of its payload. -/
def State.chunkMakes (s : State) (g : Memory) : Prop :=
  mem2 s s.cursor.toNat = 1
    ∧ (mem1 s (s.cursor.toNat + 4) = 0 ∧ rawFrame s.width.toNat s.height.toNat s.chunkPayload = .ok g
      ∨ mem1 s (s.cursor.toNat + 4) = 1 ∧ rleFrame s.width.toNat s.height.toNat s.chunkPayload = .ok g)

/-- DNEXT decodes a complete chunk that makes a frame. -/
theorem execDnext_of_chunkMakes {s : State} {g : Memory} (hm : s.mode = .dec) (h : chunkComplete s)
    (hg : s.chunkMakes g) : exec .dnext s = .next (s.frameDone (mem2 s (s.cursor.toNat + 2)) g) := by
  obtain ⟨hk, ⟨hc, hg⟩ | ⟨hc, hg⟩⟩ := hg
  · rw [execDnext_of_complete hm h, ChunkHeader.form_of_zero hk hc]
    exact State.runChunk_of_ok hm h.2 hg
  · rw [execDnext_of_complete hm h, ChunkHeader.form_of_one hk hc]
    exact State.runChunk_of_ok hm h.2 hg

/-- An OK answer of DNEXT comes from such a chunk only. -/
theorem execDnext_ok_chunkMakes {s t : State} (h : exec .dnext s = .next t) (hs : answerStatus t = some 0) :
    s.mode = .dec ∧ chunkComplete s ∧ ∃ g, s.chunkMakes g ∧ t = s.frameDone (mem2 s (s.cursor.toNat + 2)) g := by
  obtain ⟨hm, hcomplete, hk, -⟩ := execDnext_ok h hs
  refine ⟨hm, hcomplete, ?_⟩
  rw [execDnext_of_complete hm hcomplete] at h
  rcases Nat.lt_or_ge (mem1 s (s.cursor.toNat + 4)) 2 with hlt | hge
  · rcases Nat.le_one_iff_eq_zero_or_eq_one.1 (Nat.lt_succ_iff.1 hlt) with hc | hc
    · rw [ChunkHeader.form_of_zero hk hc] at h
      obtain ⟨g, hg, ht⟩ := State.runChunk_ok h hs
      exact ⟨g, ⟨hk, Or.inl ⟨hc, hg⟩⟩, ht⟩
    · rw [ChunkHeader.form_of_one hk hc] at h
      obtain ⟨g, hg, ht⟩ := State.runChunk_ok h hs
      exact ⟨g, ⟨hk, Or.inr ⟨hc, hg⟩⟩, ht⟩
  · rw [ChunkHeader.form_of_two_le hk hge] at h
    cases h
    simp at hs

/-- Settles O43: the payload suits the grid where its form makes a frame of it. -/
theorem dnextDecodesAFrame : Obligations.DnextDecodesAFrame := by
  intro s hm h hk hsuits
  have hmakes : ∃ g, s.chunkMakes g := by
    rcases hsuits with ⟨hc, hlen⟩ | ⟨hc, hle⟩
    · exact ⟨_, hk, Or.inl ⟨hc, rawFrame_of_length ((Memory.length_bytes _ _ _).trans hlen)⟩⟩
    · obtain ⟨g, hg, -⟩ := rleFrame_of_le hle
      exact ⟨g, hk, Or.inr ⟨hc, hg⟩⟩
  obtain ⟨g, hg⟩ := hmakes
  exact ⟨_, execDnext_of_chunkMakes hm h hg, frameDone_eq s _ g⟩

/-- Settles O50: the frame is made of the stream and the dimensions. -/
theorem frameIgnoresEarlierGrid : Obligations.FrameIgnoresEarlierGrid := by
  intro s t g h hs
  obtain ⟨hm, hcomplete, frame, hmakes, rfl⟩ := execDnext_ok_chunkMakes h hs
  exact execDnext_of_chunkMakes (s := { s with grid := g }) hm hcomplete hmakes

end Sys2Proof.Machine
end

section
/-! PROOFS. What the unit does not look at: SM_LEN outside DINIT, the background byte, the reserved header bytes. Two
runs are compared that differ outside the registers. -/

namespace Sys2Proof.Machine

/-! ## Two runs -/

/-- `f` changes at `s` only what the registers and the channels do not show: every shared operation goes through it. -/
structure State.Blind (f : State → State) (s : State) : Prop where
  mode : (f s).mode = s.mode
  width : (f s).width = s.width
  height : (f s).height = s.height
  refuse : ∀ r, (f s).refuse r = f (s.refuse r)
  endOfStream : (f s).endOfStream = f s.endOfStream
  raiseChunk : ∀ e, (f s).raiseChunk e = f (s.raiseChunk e)
  frameDone : ∀ n g, (f s).frameDone n g = f (s.frameDone n g)

theorem State.blind_smLen (n : Word) (s : State) : State.Blind (fun t => { t with smLen := n }) s where
  mode := rfl
  width := rfl
  height := rfl
  refuse _ := rfl
  endOfStream := rfl
  raiseChunk _ := rfl
  frameDone _ _ := rfl

theorem State.blind_stream (m : Memory) (s : State) : State.Blind (fun t => { t with stream := m }) s where
  mode := rfl
  width := rfl
  height := rfl
  refuse _ := rfl
  endOfStream := rfl
  raiseChunk _ := rfl
  frameDone _ _ := rfl

section
variable {f : State → State} {s : State} (hf : State.Blind f s)
include hf

theorem State.Blind.legalIn {l : List Mode} {body body' : Result} (hb : body' = mapNext f body) :
    (f s).legalIn l body' = mapNext f (s.legalIn l body) := by
  rw [State.legalIn, State.legalIn, hf.mode, hf.refuse, hb, apply_ite (mapNext f)]
  rfl

theorem State.Blind.withCells {body body' : Result} (hb : body' = mapNext f body) :
    (f s).withCells body' = mapNext f (s.withCells body) := by
  rw [State.withCells, State.withCells, State.hasCells, hf.width, hf.height, hf.refuse, hb, apply_ite (mapNext f)]
  rfl

theorem State.Blind.withIndex {i : Nat} {body body' : Result} (hb : body' = mapNext f body) :
    (f s).withIndex i body' = mapNext f (s.withIndex i body) := by
  rw [State.withIndex, State.withIndex, State.gridBytes, hf.width, hf.height, hf.refuse, hb, apply_ite (mapNext f)]
  rfl

theorem State.Blind.runChunk {n : Nat} (body : List Byte → Except FaultCode Memory)
    (hp : (f s).payloadRead n = s.payloadRead n) : (f s).runChunk n body = mapNext f (s.runChunk n body) := by
  refine hf.legalIn ?_
  rw [hp]
  cases s.payloadRead n with
  | none => exact congrArg _ hf.endOfStream
  | some payload =>
    cases hb : body payload with
    | error e => simp only [hb, hf.raiseChunk, mapNext]
    | ok g => simp only [hb, hf.frameDone, mapNext]

theorem State.Blind.execFrameRaw {n : Nat} (b b' : Byte) (hp : (f s).payloadRead n = s.payloadRead n) :
    exec (.frameRaw n b') (f s) = mapNext f (exec (.frameRaw n b) s) := by
  refine Eq.trans ?_ (hf.runChunk (rawFrame s.width.toNat s.height.toNat) hp)
  rw [← hf.width, ← hf.height]
  rfl

theorem State.Blind.execFrameRle {n : Nat} (b b' : Byte) (hp : (f s).payloadRead n = s.payloadRead n) :
    exec (.frameRle n b') (f s) = mapNext f (exec (.frameRle n b) s) := by
  refine Eq.trans ?_ (hf.runChunk (rleFrame s.width.toNat s.height.toNat) hp)
  rw [← hf.width, ← hf.height]
  rfl

/-- DNEXT reads of the stream the chunk's payload and its header, of which it drops the background. -/
theorem State.Blind.execDnext (hp : ∀ n, (f s).payloadRead n = s.payloadRead n) (bg : ChunkHeader → Byte)
    (hc : (f s).chunkRead (f s).cursor.toNat
      = (s.chunkRead s.cursor.toNat).map fun h => { h with background := bg h }) :
    exec .dnext (f s) = mapNext f (exec .dnext s) := by
  refine hf.legalIn ?_
  rw [hc]
  cases s.chunkRead s.cursor.toNat with
  | none => exact congrArg _ hf.endOfStream
  | some h =>
    simp only [Option.map_some, hp]
    cases s.payloadRead h.payloadSize with
    | none => exact congrArg _ hf.endOfStream
    | some payload =>
      have hform : ChunkHeader.form { h with background := bg h } = h.form := rfl
      simp only [hform]
      cases h.form with
      | error why =>
        cases why with
        | truncated => exact congrArg _ hf.endOfStream
        | badKind => exact congrArg _ (hf.raiseChunk _)
        | badCompression => exact congrArg _ (hf.raiseChunk _)
      | ok form =>
        cases form with
        | raw => exact hf.execFrameRaw h.background (bg h) (hp _)
        | rle => exact hf.execFrameRle h.background (bg h) (hp _)

end

/-! ## SM_LEN (`70_reset_and_hazards.md` R264) -/

/-- Settles O21: no instruction but DINIT reads SM_LEN. -/
theorem onlyDinitSamplesStreamLength : Obligations.OnlyDinitSamplesStreamLength := by
  intro i s n hi
  have hf := State.blind_smLen n s
  cases i with
  | gnew w h =>
    refine hf.legalIn ?_
    rw [apply_ite (mapNext _), apply_ite (mapNext _)]
    rfl
  | gget x y => exact hf.legalIn (hf.withCells rfl)
  | gset x y v => exact hf.legalIn (hf.withCells rfl)
  | gflip x y => exact hf.legalIn (hf.withCells rfl)
  | gclr => exact hf.legalIn rfl
  | grdb idx => exact hf.legalIn (hf.withIndex rfl)
  | gwrb idx data => exact hf.legalIn (hf.withIndex rfl)
  | dinit => exact absurd rfl hi
  | dnext => exact hf.execDnext (fun _ => rfl) ChunkHeader.background (by simp; rfl)
  | dfin => exact hf.legalIn rfl
  | drew => exact hf.legalIn rfl
  | rdsr k =>
    have hr : State.statusRegister { s with smLen := n } k = s.statusRegister k := rfl
    refine hf.legalIn ?_
    rw [hr]
    cases s.statusRegister k <;> rfl
  | frameRaw n b => exact hf.execFrameRaw b b rfl
  | frameRle n b => exact hf.execFrameRle b b rfl

/-! ## The background byte (`42_chunk_execution.md` R191) -/

/-- A run of bytes that does not include the address written. -/
theorem Memory.bytes_write_of_outside (m : Memory) {a n c : Nat} (h : c < a ∨ a + n ≤ c) (v : Byte) :
    Memory.bytes (m.write c v) a n = m.bytes a n :=
  Memory.bytes_congr fun i hi => by rw [Memory.read_write, if_neg (by omega)]

/-- `MemRead` of a range that does not include the address written. -/
theorem State.memBytes_write_of_outside (s : State) {a n c : Nat} (h : c < a ∨ a + n ≤ c) (v : Byte) :
    State.memBytes { s with stream := s.stream.write c v } a n = s.memBytes a n := by
  rw [State.memBytes, State.memBytes, Memory.bytes_write_of_outside _ h]

/-- The chunk header after its background byte is rewritten. -/
theorem State.chunkRead_write_background (s : State) (c : Nat) (b : Byte) :
    State.chunkRead { s with stream := s.stream.write (c + 5) b } c
      = (s.chunkRead c).map fun h => { h with background := b } := by
  by_cases h6 : c + 6 ≤ s.streamLen.toNat
  · rw [State.chunkRead_of_le h6, State.chunkRead_of_le (by exact h6)]
    simp [mem1, mem2]
  · rw [State.chunkRead_of_gt (not_le.1 h6), State.chunkRead_of_gt (by exact not_le.1 h6), Option.map_none]

/-- Settles O23: the background is no part of a chunk's kind, sizes, form or payload, and every effect answers with
`aux` 0. -/
theorem backgroundByteIsDropped : Obligations.BackgroundByteIsDropped := by
  refine ⟨fun s b => ?dnext, fun s n b b' => ⟨rfl, rfl⟩, fun i s t h => ?aux⟩
  case dnext =>
    have hf := State.blind_stream (s.stream.write (s.cursor.toNat + 5) b) s
    exact hf.execDnext (fun n => s.memBytes_write_of_outside (Or.inl (Nat.lt_succ_self _)) b) (fun _ => b)
      (s.chunkRead_write_background _ b)
  case aux =>
    obtain ⟨st, d, hr⟩ := (effect_of_exec h).response
    exact answerAux_of_rsp hr

/-! ## The reserved header bytes (`30_encoding.md` R96) -/

/-- DINIT reads of the stream the header alone. -/
theorem execDinit_with_stream {m : Memory} {s : State} (hb : m.bytes 0 24 = s.stream.bytes 0 24) :
    exec .dinit { s with stream := m } = mapNext (fun t => { t with stream := m }) (exec .dinit s) := by
  refine (State.blind_stream m s).legalIn ?_
  have hr : State.headerRead (State.latchLen { s with stream := m }) = s.latchLen.headerRead :=
    if_congr Iff.rfl rfl (congrArg (fun bs => some (parseHeader bs)) hb)
  rw [hr]
  cases s.latchLen.headerRead with
  | none => rfl
  | some h => cases hf : Params.headerFault s.params h <;> simp only [hf] <;> rfl

/-- Settles O24: the header DINIT reads ends at offset 23. -/
theorem reservedHeaderBytesAreIgnored : Obligations.ReservedHeaderBytesAreIgnored :=
  fun s _ b ha => execDinit_with_stream (Memory.bytes_write_of_outside s.stream (Or.inr ha) b)

end Sys2Proof.Machine
end

section
/-! PROOFS. Repeated DNEXT (`41_decoder_commands.md` R164, R167, `70_reset_and_hazards.md` R269): exhaustion, the frame
count, replay, and that draining ends. -/

namespace Sys2Proof.Machine

/-! ## One more DNEXT -/

section
variable {s t : State} {n : Nat}

theorem dnexts_succ_of_exec {u : State} (h : exec .dnext s = .next u) : dnexts (n + 1) s = dnexts n u := by
  rw [dnexts, h]

theorem okDnexts_succ_of_exec {u : State} (h : exec .dnext s = .next u) (hs : answerStatus u = some 0) :
    okDnexts (n + 1) s = okDnexts n u := by
  rw [okDnexts, h]
  exact if_pos hs

/-- A run of OK answers begins with one. -/
theorem exists_of_okDnexts_succ (h : okDnexts (n + 1) s = some t) :
    ∃ u, exec .dnext s = .next u ∧ answerStatus u = some 0 ∧ okDnexts n u = some t := by
  obtain ⟨u, hu, -⟩ := exec_effect .dnext s
  by_cases hs : answerStatus u = some 0
  · exact ⟨u, hu, hs, (okDnexts_succ_of_exec hu hs).symm.trans h⟩
  · simp only [okDnexts, hu, if_neg hs] at h
    cases h

/-- DRAIN stops at the first NONE or FAULT. -/
theorem drain_succ_of_end {u : State} (h : exec .dnext s = .next u)
    (hs : answerStatus u = some 1 ∨ answerStatus u = some 3) : drain (n + 1) s = some u := by
  rw [drain, h]
  exact if_pos hs

/-- DRAIN goes on after an OK. -/
theorem drain_succ_of_ok {u : State} (h : exec .dnext s = .next u) (hs : answerStatus u = some 0) :
    drain (n + 1) s = drain n u := by
  rw [drain, h]
  exact if_neg (by simp [hs])

/-- DRAIN, like DNEXT, does not read the response channel. -/
theorem drain_succ_rsp_irrelevant (n : Nat) (s : State) (r : Option Word48) :
    drain (n + 1) { s with rsp := r } = drain (n + 1) s := by
  rw [drain, drain, exec_rsp_irrelevant]

end

/-! ## Exhaustion and the frame count (R164) -/

/-- Settles O49: after NONE the cursor stands at the end, where no chunk is complete. -/
theorem exhaustionIsForEver : Obligations.ExhaustionIsForEver := by
  intro s t h hs
  obtain ⟨-, hm, rfl⟩ := (effect_of_exec h).ended_of_status hs
  have hend : ¬ chunkComplete s.endOfStream := fun hc => by
    have := hc.1
    simp at this
  rw [execDnext_of_not_complete (s := s.endOfStream) hm hend, endOfStream_eq]

/-- After `n + 1` OK answers FRAME_ID has counted them, and the last one carries it. -/
theorem okDnexts_frameId {n : Nat} {s t : State} (h : okDnexts (n + 1) s = some t) :
    t.rsp = some (responseWord .ok 0 t.frameId) ∧ t.frameId = s.frameId + BitVec.ofNat 32 (n + 1) := by
  induction n generalizing s with
  | zero =>
    obtain ⟨u, hu, hs, h⟩ := exists_of_okDnexts_succ h
    obtain ⟨-, -, -, g, rfl⟩ := execDnext_ok hu hs
    cases h
    exact ⟨rfl, rfl⟩
  | succ n ih =>
    obtain ⟨u, hu, hs, h⟩ := exists_of_okDnexts_succ h
    obtain ⟨hrsp, hid⟩ := ih h
    obtain ⟨-, -, -, g, rfl⟩ := execDnext_ok hu hs
    refine ⟨hrsp, ?_⟩
    rw [hid, State.frameDone_frameId, add_assoc, Nat.add_comm (n + 1) 1, BitVec.ofNat_add 1]
    rfl

/-- Settles O51: from FRAME_ID 0 the count is the number of answers, below 2^32. -/
theorem frameIdsAreSequential : Obligations.FrameIdsAreSequential := by
  intro k s t hzero hpos hlt h
  obtain ⟨n, rfl⟩ := Nat.exists_eq_succ_of_ne_zero hpos.ne'
  obtain ⟨hrsp, hid⟩ := okDnexts_frameId h
  have hnum : t.frameId.toNat = n + 1 := by
    rw [hid, hzero, zero_add, BitVec.toNat_ofNat, Nat.mod_eq_of_lt hlt]
  refine ⟨?_, hnum⟩
  rw [hrsp, responseWord_eq, hnum]
  rfl

/-! ## Replay (R167) -/

/-- `t` is the decoder `s` at another place of its stream: DNEXT in DEC writes nothing else. -/
def State.MovedFrom (t s : State) : Prop :=
  t = { s with rsp := t.rsp, grid := t.grid, cursor := t.cursor, frameId := t.frameId }

theorem State.MovedFrom.refl (s : State) : s.MovedFrom s := rfl

theorem State.MovedFrom.trans {s t u : State} (hu : u.MovedFrom t) (ht : t.MovedFrom s) : u.MovedFrom s := by
  unfold MovedFrom at *
  rw [ht] at hu
  exact hu

/-- A DNEXT that ends in DEC started there and moved the decoder. -/
theorem movedFrom_of_dnext {s t : State} (h : exec .dnext s = .next t) (ht : t.mode = .dec) :
    s.mode = .dec ∧ t.MovedFrom s := by
  rcases execDnext_cases h with ⟨hm, rfl⟩ | ⟨hm, rfl⟩ | ⟨f, -, rfl, -⟩ | ⟨g, hm, rfl, -⟩
  · exact absurd ht hm
  · exact ⟨hm, rfl⟩
  · cases ht
  · exact ⟨hm, rfl⟩

theorem movedFrom_of_dnexts {n : Nat} {s t : State} (h : dnexts n s = some t) (ht : t.mode = .dec) :
    s.mode = .dec ∧ t.MovedFrom s := by
  induction n generalizing s with
  | zero => cases h; exact ⟨ht, State.MovedFrom.refl _⟩
  | succ n ih =>
    obtain ⟨u, hu, -⟩ := exec_effect .dnext s
    rw [dnexts_succ_of_exec hu] at h
    obtain ⟨hum, hmoved⟩ := ih h
    obtain ⟨hs, hfirst⟩ := movedFrom_of_dnext hu hum
    exact ⟨hs, hmoved.trans hfirst⟩

/-- DREW takes a decoder back from wherever it moved (`41_decoder_commands.md` R166). -/
theorem execDrew_of_movedFrom {s t : State} (h : t.MovedFrom s) (ht : t.mode = .dec) :
    exec .drew t = .next { s with cursor := 128, grid := [], frameId := 0, rsp := some (rsp48 0 0 0) } := by
  rw [execDrew_of_dec ht]
  unfold State.MovedFrom at h
  rw [h]

/-- A DINIT that leads to DEC constructed a decoder. -/
theorem constructed_of_dec {s t : State} (hm : s.mode = .unconf) (h : exec .dinit s = .next t) (ht : t.mode = .dec) :
    ∃ hd, t = s.latchLen.construct hd := by
  cases effect_of_exec h with
  | constructed hd => exact ⟨hd, rfl⟩
  | refused | read => exact nomatch hm.symm.trans ht
  | notConstructed => cases ht
  | cellWritten _ _ _ _ _ _ _ hi => simp at hi
  | ended _ hc | chunkFault _ _ hc | frame _ _ hc => cases hc

/-- Settles O52: what a constructed decoder holds beside its position is what DREW keeps. -/
theorem rewindRestoresConstruction : Obligations.RewindRestoresConstruction := by
  intro s t u n hm h ht hn hu
  obtain ⟨-, hmoved⟩ := movedFrom_of_dnexts hn hu
  obtain ⟨hd, rfl⟩ := constructed_of_dec hm h ht
  rw [execDrew_of_movedFrom hmoved hu, State.construct, answer_eq_rsp48]
  rfl

/-! ## Draining (R269) -/

/-- Every OK moves the cursor six bytes or more, so DRAIN ends before it has passed the buffer. -/
theorem exists_drain {n : Nat} {s : State} (hm : s.mode = .dec) (hn : (s.streamLen.toNat - s.cursor.toNat) / 6 < n) :
    ∃ t, drain n s = some t ∧ (answerStatus t = some 1 ∨ answerStatus t = some 3)
      ∧ (t.mode = .dec → t.MovedFrom s) := by
  induction n generalizing s with
  | zero => omega
  | succ n ih =>
    obtain ⟨u, hu, -⟩ := exec_effect .dnext s
    rcases execDnext_cases hu with ⟨hne, -⟩ | ⟨-, rfl⟩ | ⟨f, -, rfl, -⟩ | ⟨g, -, rfl, hl, -⟩
    · exact absurd hm hne
    · have hs : answerStatus s.endOfStream = some 1 := by simp
      exact ⟨_, drain_succ_of_end hu (Or.inl hs), Or.inl hs, fun _ => rfl⟩
    · have hs : answerStatus (s.raiseChunk f) = some 3 := by simp
      exact ⟨_, drain_succ_of_end hu (Or.inr hs), Or.inr hs, nofun⟩
    · rw [drain_succ_of_ok hu (by simp)]
      obtain ⟨t, ht, hs, hmoved⟩ := ih (s := s.frameDone (chunkSize .dnext s) g) hm (by
        rw [State.toNat_cursor_frameDone g hl, State.frameDone_streamLen]
        omega)
      exact ⟨t, ht, hs, fun hd => (hmoved hd).trans rfl⟩

/-- REPLAY from where a decoder moved to is DRAIN from its entry point. -/
theorem replay_of_movedFrom {n : Nat} {s t : State} (h : t.MovedFrom s) (ht : t.mode = .dec) :
    replay n t = drain n { s with cursor := 128, grid := [], frameId := 0, rsp := some (rsp48 0 0 0) } := by
  rw [replay, execDrew_of_movedFrom h ht]

/-- Settles O53: a state at its entry point is its own rewinding, but for the response, which DRAIN does not read. -/
theorem drainingTerminates : Obligations.DrainingTerminates := by
  intro s hm hc
  have hc' : s.cursor.toNat = 128 := by rw [hc]; rfl
  obtain ⟨t, ht, hs, hmoved⟩ := exists_drain hm (n := (s.streamLen.toNat - 128) / 6 + 1) (by rw [hc']; omega)
  refine ⟨t, ht, hs, fun htm hid hg => ?_⟩
  rw [replay_of_movedFrom (hmoved htm) htm, ← hc, ← hg, ← hid, ← ht]
  exact drain_succ_rsp_irrelevant _ s _

end Sys2Proof.Machine
end

section
/-! PROOFS. The round trips through the reference encoder (`43_reference_encoder.md` R217): a frame's runs, its chunk,
the whole stream. -/

namespace Sys2Proof.Machine

/-! ## Runs (R213, R214) -/

/-- The run being counted ends with at least the count it has. -/
theorem exists_le_mem_runLengths {n : Nat} (hn : n ≠ 0) (c : Bool) (l : List Bool) : ∃ m ∈ runLengths c n l, n ≤ m := by
  induction l generalizing n with
  | nil => exact ⟨n, by simp [runLengths, hn], le_rfl⟩
  | cons b l ih =>
    unfold runLengths
    split
    · exact ⟨n, List.mem_cons_self, le_rfl⟩
    · obtain ⟨m, hm, hle⟩ := ih (Nat.succ_ne_zero n)
      exact ⟨m, hm, (Nat.le_succ n).trans hle⟩

/-- While no run is longer than a byte counts, the runs of a scan expand to the scan. -/
theorem expandRuns_runsFrom {c : Bool} {n : Nat} {l : List Bool} (hn : n ≤ 255)
    (h : ∀ m ∈ runLengths c n l, m ≤ 255) : expandRuns c (runsFrom c n l) = List.replicate n c ++ l := by
  have htoNat : (BitVec.ofNat 8 n).toNat = n := by rw [BitVec.toNat_ofNat]; omega
  induction l generalizing c n with
  | nil =>
    by_cases h0 : n = 0
    · simp [runsFrom, h0, expandRuns]
    · simp only [runsFrom, if_pos h0, expandRuns, htoNat]
  | cons b l ih =>
    by_cases hb : b = c
    · subst hb
      rw [runLengths, if_neg (not_not.2 rfl)] at h
      obtain ⟨m, hm, hle⟩ := exists_le_mem_runLengths (Nat.succ_ne_zero n) b l
      have hn' : n + 1 ≤ 255 := hle.trans (h m hm)
      rw [runsFrom, if_neg (not_not.2 rfl), Nat.mod_eq_of_lt (by omega),
        ih hn' h (by rw [BitVec.toNat_ofNat]; omega), List.replicate_succ', List.append_assoc]
      rfl
    · rw [runLengths, if_pos hb] at h
      have hflip : (!c) = b := (Bool.eq_not.2 hb).symm
      rw [runsFrom, if_pos hb, expandRuns, htoNat, hflip,
        ih (by decide) (fun m hm => h m (List.mem_cons_of_mem _ hm)) rfl]
      rfl

theorem length_expandRuns (c : Bool) (payload : List Byte) : (expandRuns c payload).length = runTotal payload := by
  induction payload generalizing c with
  | nil => rfl
  | cons r rs ih => simp [expandRuns, ih, runTotal]

theorem HostFrame.length_pixels (f : HostFrame) : f.pixels.length = f.width * f.height := by
  simp [pixels]

/-- The scan at the index of a cell. -/
theorem HostFrame.getD_pixels (f : HostFrame) {x y : Nat} (hx : x < f.width) (hy : y < f.height) :
    f.pixels.getD (y * f.width + x) false = f.cell x y := by
  have hlt := scanIndex_lt hx hy
  obtain ⟨hmod, hdiv⟩ := scanIndex_mod_div hx y
  simp [pixels, List.getD, hlt, hmod, hdiv]

/-- The runs of a frame that fit bytes expand to its scan. -/
theorem HostFrame.expandRuns_runs {f : HostFrame} (h : f.runsFit) : expandRuns false f.runs = f.pixels :=
  expandRuns_runsFrom (Nat.zero_le _) h

/-- Settles O57: the expansion is the scan, so the runs cover the cells exactly and each cell is its own. -/
theorem runsRoundTrip : Obligations.RunsRoundTrip := by
  intro f hfit
  have hexp := f.expandRuns_runs hfit
  have htotal : runTotal f.runs = f.width * f.height := by
    rw [← length_expandRuns false, hexp, f.length_pixels]
  obtain ⟨g, hg, -⟩ := rleFrame_of_le htotal.le
  refine ⟨g, hg, fun x y hx hy => ?_⟩
  rw [rleFrame_cell hg hx hy, hexp, f.getD_pixels hx hy]

/-! ## A chunk (R212, R215, R216) -/

/-- The chunk of an encodable frame: a header of kind 1, and a payload that its form turns back into the frame. -/
theorem HostFrame.exists_chunk_frame {f : HostFrame} {w h : Nat} (henc : f.encodable w h = true)
    (hfit : f.runsFit ∨ f.chunk = f.raw) :
    ∃ comp payload g, f.chunk = chunkHeaderOf payload.length comp 0 ++ payload ∧ payload.length < 65536
      ∧ (comp = 0 ∧ rawFrame w h payload = .ok g ∨ comp = 1 ∧ rleFrame w h payload = .ok g)
      ∧ ∀ x y, x < f.width → y < f.height → readCell (strideOf w) g x y = f.cell x y := by
  simp only [encodable, Bool.and_eq_true, decide_eq_true_eq] at henc
  obtain ⟨⟨⟨rfl, rfl⟩, hbytes⟩, hlen⟩ := henc
  have short : ∀ n comp (payload : List Byte), f.chunk = chunkHeaderOf n comp 0 ++ payload → payload.length < 65536 :=
    fun n comp payload hc => by
      rw [hc, List.length_append, length_chunkHeaderOf, chunkHeaderBytes] at hlen
      omega
  by_cases hc : f.chunk = f.raw
  · have hraw : f.raw = chunkHeaderOf f.bytes.length 0 0 ++ f.bytes := by rw [hbytes]; rfl
    refine ⟨0, f.bytes, _, hc.trans hraw, short _ _ _ (hc.trans hraw), Or.inl ⟨rfl, rawFrame_of_length hbytes⟩, ?_⟩
    intro x y _ _
    rw [readCell, Memory.read_ofBytes]
    rfl
  · have hrle : f.chunk = f.rle := by
      unfold chunk at hc ⊢
      split at hc
      · next hlt => rw [if_pos hlt]
      · exact absurd rfl hc
    obtain ⟨g, hg, hcells⟩ := runsRoundTrip f (hfit.resolve_right hc)
    exact ⟨1, f.runs, g, hrle, short _ _ _ hrle, Or.inr ⟨rfl, hg⟩, hcells⟩

/-! ## The stream ahead of the cursor -/

/-- A part of a list of bytes that a memory holds from address `c` up. -/
theorem Memory.bytes_of_reads {m : Memory} {c : Nat} {pre mid post : List Byte}
    (h : ∀ i, i < (pre ++ mid ++ post).length → m.read (c + i) = (pre ++ mid ++ post).getD i 0) :
    m.bytes (c + pre.length) mid.length = mid := by
  refine (Memory.bytes_eq_iff rfl).2 fun k hk => ?_
  rw [Nat.add_assoc, h _ (by simp; omega), List.append_assoc, List.getD_append_right _ _ _ _ (by omega),
    Nat.add_sub_cancel_left, List.getD_append _ _ _ _ hk]

/-- The unit is in DEC, and `rest` is what its stream holds from CURSOR to its end. -/
structure State.Ahead (s : State) (rest : List Byte) : Prop where
  mode : s.mode = .dec
  ends : s.cursor.toNat + rest.length = s.streamLen.toNat
  reads : ∀ i, i < rest.length → s.stream.read (s.cursor.toNat + i) = rest.getD i 0

section
variable {s : State}

/-- The header fields of a chunk ahead. -/
theorem State.Ahead.chunkHeader {n comp : Nat} {rest : List Byte} (h : s.Ahead (chunkHeaderOf n comp 0 ++ rest))
    (hn : n < 65536) (hc : comp < 256) :
    mem2 s s.cursor.toNat = 1 ∧ mem2 s (s.cursor.toNat + 2) = n ∧ mem1 s (s.cursor.toNat + 4) = comp := by
  have hbytes := Memory.bytes_of_reads (pre := []) (mid := chunkHeaderOf n comp 0) h.reads
  rw [length_chunkHeaderOf] at hbytes
  have hparse := parseChunkHeader_bytes s s.cursor.toNat
  rw [show s.stream.bytes s.cursor.toNat 6 = _ from hbytes, parseChunkHeader_chunkHeaderOf hn hc] at hparse
  injection hparse with hkind hsize hcomp
  exact ⟨hkind.symm, hsize.symm, hcomp.symm⟩

/-- A frame moves past its chunk. -/
theorem State.Ahead.frameDone {n : Nat} {chunk rest : List Byte} (h : s.Ahead (chunk ++ rest))
    (hn : chunk.length = 6 + n) (g : Memory) : (s.frameDone n g).Ahead rest := by
  have hends := h.ends
  rw [List.length_append] at hends
  have hcursor := State.toNat_cursor_frameDone g (show s.cursor.toNat + 6 + n ≤ s.streamLen.toNat by omega)
  refine ⟨h.mode, by rw [hcursor, State.frameDone_streamLen]; omega, fun i hi => ?_⟩
  rw [hcursor, State.frameDone_stream, show s.cursor.toNat + 6 + n + i = s.cursor.toNat + (chunk.length + i) by omega,
    h.reads _ (by simp; omega), List.getD_append_right _ _ _ _ (by omega), Nat.add_sub_cancel_left]

/-- DNEXT on the chunk of a frame decodes that frame. -/
theorem State.Ahead.dnext {f : HostFrame} {rest : List Byte} (h : s.Ahead (f.chunk ++ rest))
    (henc : f.encodable s.width.toNat s.height.toNat = true) (hfit : f.runsFit ∨ f.chunk = f.raw) :
    ∃ n g, exec .dnext s = .next (s.frameDone n g) ∧ (s.frameDone n g).Ahead rest
      ∧ ∀ x y, x < f.width → y < f.height → cellBit (s.frameDone n g) x y = f.cell x y := by
  obtain ⟨comp, payload, g, hchunk, hlen, hframe, hcells⟩ := f.exists_chunk_frame henc hfit
  have hsize : f.chunk.length = 6 + payload.length := by rw [hchunk, List.length_append, length_chunkHeaderOf]
  have hdone := h.frameDone hsize g
  have hends := h.ends
  rw [List.length_append] at hends
  rw [hchunk] at h
  have hpayload := Memory.bytes_of_reads h.reads
  rw [List.append_assoc] at h
  rw [length_chunkHeaderOf] at hpayload
  obtain ⟨hkind, hn, hcomp⟩ := h.chunkHeader hlen (by omega)
  have hcomplete : chunkComplete s := ⟨by omega, by omega⟩
  have hmakes : s.chunkMakes g := by
    refine ⟨hkind, ?_⟩
    rw [hcomp, State.chunkPayload, hn, hpayload]
    exact hframe
  refine ⟨_, g, execDnext_of_chunkMakes h.mode hcomplete hmakes, hn ▸ hdone, fun x y hx hy => ?_⟩
  rw [← State.cell_eq_cellBit]
  exact hcells x y hx hy

/-- At the end of the stream the unit is FINISHED and DNEXT answers NONE. -/
theorem State.Ahead.finished (h : s.Ahead []) :
    s.finished = true ∧ exec .dnext s = .next { s with rsp := some (rsp48 1 0 0) } := by
  have hends : s.streamLen = s.cursor := BitVec.eq_of_toNat_eq h.ends.symm
  refine ⟨(State.finished_iff_of_dec h.mode).2 hends, ?_⟩
  rw [execDnext_of_not_complete h.mode fun hc => by have := hc.1; rw [hends] at this; omega, hends]

end

/-- DNEXT after DNEXT decodes frame after frame, to the end of the stream. -/
theorem okDnexts_decodes {frames : List HostFrame} {s : State} (h : s.Ahead (frames.map HostFrame.chunk).flatten)
    (henc : ∀ f ∈ frames, f.encodable s.width.toNat s.height.toNat = true)
    (hfit : ∀ f ∈ frames, f.runsFit ∨ f.chunk = f.raw) :
    (∀ k f, frames[k]? = some f → ∃ u, okDnexts (k + 1) s = some u
        ∧ ∀ x y, x < f.width → y < f.height → cellBit u x y = f.cell x y)
      ∧ ∃ u, okDnexts frames.length s = some u ∧ u.Ahead [] := by
  induction frames generalizing s with
  | nil => exact ⟨fun k f hf => by simp at hf, s, rfl, h⟩
  | cons f frames ih =>
    rw [List.map_cons, List.flatten_cons] at h
    obtain ⟨n, g, hexec, hahead, hcells⟩ := h.dnext (henc f List.mem_cons_self) (hfit f List.mem_cons_self)
    have hstep : ∀ k, okDnexts (k + 1) s = okDnexts k (s.frameDone n g) :=
      fun k => okDnexts_succ_of_exec hexec (by simp)
    obtain ⟨hlater, u, hu, hend⟩ := ih hahead (fun f' hf' => henc f' (List.mem_cons_of_mem _ hf'))
      (fun f' hf' => hfit f' (List.mem_cons_of_mem _ hf'))
    refine ⟨fun k f' hf' => ?_, u, (hstep _).trans hu, hend⟩
    cases k with
    | zero =>
      cases hf'
      exact ⟨_, hstep 0, hcells⟩
    | succ k =>
      rw [hstep]
      exact hlater k f' hf'

/-! ## The whole stream (R211, R217) -/

/-- What the encoder's preconditions and its output are (`43_reference_encoder.md` R211, R218). -/
theorem Params.encodeFrames_some {p : Params} {frames : List HostFrame} {bytes : List Byte}
    (h : Params.encodeFrames p frames = some bytes) :
    ∃ w ht, w ≤ 32767 ∧ ht ≤ 32767 ∧ frames.length < 4294967296 ∧ (∀ f ∈ frames, f.encodable w ht = true)
      ∧ bytes = Params.header p frames.length w ht ++ (frames.map HostFrame.chunk).flatten
      ∧ ((∀ f ∈ frames, gridBytesOf f.width f.height ≤ p.gridCapBytes.val) →
          gridBytesOf w ht ≤ p.gridCapBytes.val) := by
  unfold Params.encodeFrames at h
  split at h
  · cases h
    exact ⟨0, 0, by decide, by decide, by decide, nofun, (List.append_nil _).symm, fun _ => Nat.zero_le _⟩
  · next f frames =>
    split at h
    · next hpre =>
      obtain ⟨hw, hh, hlen, henc⟩ := hpre
      exact ⟨f.width, f.height, hw, hh, hlen, List.all_eq_true.1 henc, (Option.some.inj h).symm,
        fun hcap => hcap f List.mem_cons_self⟩
    · cases h

theorem Params.length_header (p : Params) (fc w h : Nat) : (Params.header p fc w h).length = 128 := by
  simp [Params.header, length_leBytes]

/-- The header of a stream that begins with an encoded one. -/
theorem streamHeader_of_encoded {s : State} {fc w ht : Nat} {rest : List Byte}
    (hs : s.stream = Memory.ofBytes (Params.header s.params fc w ht ++ rest)) (hfc : fc < 4294967296) (hw : w ≤ 32767)
    (hh : ht ≤ 32767) :
    s.streamHeader = Header.mk s.params.magic s.params.supportedVersion.toNat fc w ht := by
  have part : ∀ {a n : Nat} (pre mid post : List Byte), Params.header s.params fc w ht ++ rest = pre ++ mid ++ post →
      pre.length = a → mid.length = n → s.stream.bytes a n = mid := by
    rintro _ _ pre mid post hparts rfl rfl
    have hmid := Memory.bytes_of_reads (m := s.stream) (c := 0) (pre := pre) (mid := mid) (post := post) fun i _ => by
      rw [hs, hparts, Memory.read_ofBytes, Nat.zero_add]
    rwa [Nat.zero_add] at hmid
  have hmagic : s.stream.bytes 0 12 = s.params.magic :=
    part [] _ _ (by simp only [Params.header, List.append_assoc]; rfl) rfl (by simp)
  have hversion : s.stream.bytes 12 4 = leBytes 4 s.params.supportedVersion.toNat :=
    part s.params.magic _ _ (by simp only [Params.header, List.append_assoc]; rfl) (by simp) (length_leBytes _ _)
  have hcount : s.stream.bytes 16 4 = leBytes 4 fc :=
    part (s.params.magic ++ leBytes 4 s.params.supportedVersion.toNat) _ _
      (by simp only [Params.header, List.append_assoc]; rfl) (by simp [length_leBytes]) (length_leBytes _ _)
  have hwidth : s.stream.bytes 20 2 = leBytes 2 w :=
    part (s.params.magic ++ leBytes 4 s.params.supportedVersion.toNat ++ leBytes 4 fc) _ _
      (by simp only [Params.header, List.append_assoc]; rfl) (by simp [length_leBytes]) (length_leBytes _ _)
  have hheight : s.stream.bytes 22 2 = leBytes 2 ht :=
    part (s.params.magic ++ leBytes 4 s.params.supportedVersion.toNat ++ leBytes 4 fc ++ leBytes 2 w) _ _
      (by simp only [Params.header, List.append_assoc]; rfl) (by simp [length_leBytes]) (length_leBytes _ _)
  rw [State.streamHeader, ← leNat_bytes_four, ← leNat_bytes_four, ← leNat_bytes_two, ← leNat_bytes_two, hmagic,
    hversion, hcount, hwidth, hheight, leNat_leBytes_four s.params.supportedVersion.isLt, leNat_leBytes_four hfc,
    leNat_leBytes_two (by omega), leNat_leBytes_two (by omega)]

/-- DINIT accepts an encoded header and leaves the chunks ahead. -/
theorem exists_dinit_of_encoded {s : State} {fc w ht : Nat} {rest : List Byte} (hm : s.mode = .unconf)
    (hs : s.stream = Memory.ofBytes (Params.header s.params fc w ht ++ rest)) (hl : s.smLen.toNat = 128 + rest.length)
    (hfc : fc < 4294967296) (hw : w ≤ 32767) (hh : ht ≤ 32767) (hcap : gridBytesOf w ht ≤ s.params.gridCapBytes.val) :
    ∃ t, exec .dinit s = .next t ∧ answerStatus t = some 0 ∧ t.frameId = 0 ∧ t.width.toNat = w ∧ t.height.toNat = ht
      ∧ t.Ahead rest := by
  have hheader := streamHeader_of_encoded hs hfc hw hh
  have hf : Params.headerFault s.params s.streamHeader = none := by
    rw [hheader]
    exact (headerFault_of_dims_le rfl rfl hw hh).trans (if_pos hcap)
  have hwidth : mem2 s 20 = w := congrArg Header.width hheader
  have hheight : mem2 s 22 = ht := congrArg Header.height hheader
  refine ⟨_, execDinit_of_accepted hm (by omega) hf, rfl, rfl, ?_, ?_, rfl, hl.symm, fun i hi => ?_⟩
  · rw [BitVec.toNat_ofNat, hwidth]
    omega
  · rw [BitVec.toNat_ofNat, hheight]
    omega
  · show s.stream.read (128 + i) = _
    rw [hs, Memory.read_ofBytes, List.getD_append_right _ _ _ _ (by simp [Params.length_header]), Params.length_header,
      Nat.add_sub_cancel_left]

/-- Settles O58: DINIT leaves the chunks ahead, DNEXT decodes one after another; the ids are those of R164 (3). -/
theorem streamRoundTrip : Obligations.StreamRoundTrip := by
  intro p frames bytes hbytes hlen hcap hfit
  obtain ⟨w, ht, hw, hh, hcount, henc, rfl, hcap'⟩ := Params.encodeFrames_some hbytes
  obtain ⟨t, hexec, hs, hid, rfl, rfl, hahead⟩ := exists_dinit_of_encoded
    (s := (State.resetWith p).attach (Params.header p frames.length w ht ++ (frames.map HostFrame.chunk).flatten))
    rfl rfl (by
      rw [← Params.length_header p frames.length w ht, ← List.length_append]
      exact (BitVec.toNat_ofNat _ _).trans (Nat.mod_eq_of_lt hlen)) hcount hw hh (hcap' hcap)
  obtain ⟨hframes, u, hu, hend⟩ := okDnexts_decodes hahead henc hfit
  refine ⟨t, hexec, hahead.mode, hs, fun k f hf => ?_, u, hu, hend.finished⟩
  obtain ⟨v, hv, hcells⟩ := hframes k f hf
  have hk : k < frames.length := (List.getElem?_eq_some_iff.1 hf).1
  exact ⟨v, hv, (frameIdsAreSequential (k + 1) t v hid (Nat.succ_pos k) (by omega) hv).1, hcells⟩

end Sys2Proof.Machine
end
